-- ==== Sys2Proof/Word.lean ====
section
/-! DEFINITION. The unsigned words of the block (spec 00 R7, R8): bytes, 12-bit codes and symbols, 32-bit host words. -/
namespace Sys2Proof

/-- One byte of the input store (20 R60). -/
abbrev Byte := BitVec 8

/-- A code, zero-extended to 12 bits (30 R91). -/
abbrev Code := BitVec 12

/-- One output index or dictionary symbol, `SYM_W` = 12 bits (00 R6). -/
abbrev LzwSym := BitVec 12

/-- A host word: the width at which registers are read and written (10 R29). -/
abbrev Word := BitVec 32

/-- `v mod 2^k` over the natural numbers: the field `v[k-1:0]` of 00 R8. -/
def lowBits (v k : Nat) : Nat := v % 2 ^ k

theorem lowBits_lt (v k : Nat) : lowBits v k < 2 ^ k := Nat.mod_lt _ (Nat.two_pow_pos k)

end Sys2Proof
end

