-- ==== Sys2Proof/Config.lean ====
section
/-! DEFINITION. What an implementation fixes (the open parameters of 00 R6) and the free values: constants without a body,
so that nothing can be proved of what they are. -/
namespace Sys2Proof

/-- The open parameters of 00 R6 that the block's behaviour depends on. `BUS_MAP` is unused by the rules (93 U14).
They are plain data of State (log 1), so that a statement over all states holds for every value of them. -/
structure Params where
  /-- `SB_MAX`: sub-block slots in the input store. -/
  sbMax : Nat
  /-- `OUT_CAP`: capacity of the output buffer, `0 ≤ OUT_CAP ≤ 2^32 − 1`. -/
  outCap : Word
  /-- `TAIL_CHECK`: one more fetch after EndOfInformation (90 C1). -/
  tailCheck : Bool
  deriving DecidableEq, Repr

/-- DESIGN CHOICE (log 1): the values State.reset takes. `TAIL_CHECK` is at the spec's default; the two capacities are
"large enough" (95 §0): no 32-bit `SB_COUNT` and no `EXPECT` exceeds them. -/
def Params.standard : Params := ⟨2 ^ 32 - 1, BitVec.ofNat 32 (2 ^ 32 - 1), false⟩

/-- Free value (log 4): `WIDTH` after RST, unspecified by 10 R50. -/
opaque Config.freeWidth : Nat → BitVec 4

/-- Free value (log 4): `NEXT` after RST, unspecified by 10 R50. -/
opaque Config.freeNext : Nat → BitVec 13

/-- Free contents (log 5): byte `a` of `IN` not written since the RST numbered by the first argument (93 U5). -/
opaque Config.freeInByte : Nat → Nat → Byte

/-- Free value (log 6): a host read of `OUT` that the rules leave unspecified (43 R173, 93 U3 and U4). -/
opaque Config.freeOutRead : Nat → Word

/-- Free contents (log 14): the entry of a result at a position (the second argument) at or above `OUT_COUNT`, where `OUT` is
unspecified (43 R173, 93 U3); the first argument counts the free values drawn. -/
opaque Config.freeOutEntry : Nat → Nat → LzwSym

end Sys2Proof
end

