-- ==== Sys2Proof/Syntax.lean ====
section
/-! DEFINITION. The instructions of the block: one constructor per row of spec/opcode_table.json, and what the block receives
them from: a code of the stream, a write of `CTRL`, or the reset input. -/
namespace Sys2Proof

/-- The rows of the opcode table. -/
inductive Instr where
  /-- ClearCode (41 R141). -/
  | clr
  /-- EndOfInformation (41 R142). -/
  | eoi
  /-- A base literal code (42 R150). -/
  | lit (k : Code)
  /-- An assigned dictionary code (42 R151). -/
  | ref (c : Code)
  /-- The code equal to `NEXT` (42 R152). -/
  | kwk
  /-- The reserved range (42 R153). -/
  | unassigned (c : Code)
  /-- The host's START command (44 R181). -/
  | start
  /-- The hardware reset (44 R180). -/
  | rst
  deriving DecidableEq, Repr

/-- What carries an instruction to the block: a fetched code (30 R90), a word written to `CTRL`, or the reset input, which
has no encoding (30 R97). -/
inductive Stimulus where
  | code (c : Code)
  | ctrl (v : Word)
  | resetInput
  deriving DecidableEq, Repr

/-- What the classification of a code depends on besides the code: `n`, `NEXT` and `PREV_VALID` (30 R93). -/
structure CodeCtx where
  n : Nat
  next : BitVec 13
  prevValid : Bool
  deriving DecidableEq, Repr

/-- `CODE_MIN_W` and `CODE_MAX_W` (00 R6). -/
@[simp] abbrev codeMinW : Nat := 2
@[simp] abbrev codeMaxW : Nat := 12

/-- `DICT_SIZE` (00 R6). -/
@[simp] abbrev dictSize : Nat := 4096

/-- `N_MIN` and `N_MAX`: the legal range of `n` (00 R6, 10 R21). -/
@[simp] abbrev nMin : Nat := 1
@[simp] abbrev nMax : Nat := 11

/-- `CLEAR = 2^n` (10 R34). -/
def clearCode (n : Nat) : Nat := 2 ^ n

/-- `EOI = CLEAR + 1` (10 R34). -/
def eoiCode (n : Nat) : Nat := clearCode n + 1

/-- `FIRST_FREE = CLEAR + 2` (10 R34). -/
def firstFree (n : Nat) : Nat := clearCode n + 2

end Sys2Proof
end

