-- ==== Sys2Proof/WellFormed.lean ====
section
/-! DEFINITION. Which instructions a code can stand for in a given engine context: the conditions of the opcode map
(30 R93) and of the stream notation (30 R98), as checks. -/
namespace Sys2Proof

/-- A context a running engine can be in: `n` legal (10 R21), `FIRST_FREE ≤ NEXT ≤ 4096` (10 R36), and no assigned code
while there is no predecessor (30 R93). -/
abbrev CodeCtx.Legal (x : CodeCtx) : Prop :=
  nMin ≤ x.n ∧ x.n ≤ nMax ∧ firstFree x.n ≤ x.next.toNat ∧ x.next.toNat ≤ dictSize ∧
    (x.prevValid = false → x.next.toNat = firstFree x.n)

/-- The operand and context conditions of each instruction (30 R93 rows 1 to 6). -/
def Instr.wf (x : CodeCtx) : Instr → Bool
  | .clr => true
  | .eoi => true
  | .lit k => decide (k.toNat < clearCode x.n)
  | .ref c => x.prevValid && decide (firstFree x.n ≤ c.toNat) && decide (c.toNat < x.next.toNat)
  | .kwk => x.prevValid && decide (x.next.toNat < dictSize)
  | .unassigned c => decide (firstFree x.n ≤ c.toNat) && (!x.prevValid || decide (x.next.toNat < c.toNat))
  | .start => true
  | .rst => true

/-- A width the bit reader accepts (40 R125). -/
abbrev legalWidth (w : Nat) : Prop := codeMinW ≤ w ∧ w ≤ codeMaxW

end Sys2Proof
end

