-- ==== Sys2Proof/Decode.lean ====
section
/-! DEFINITION. Reading instructions: the assembly of a code from the bit stream (30 R91, 40 R124), the opcode map (30 R93),
the host command encoding (30 R97); then the encoder, written from the same tables, and the stream packer (30 R99). -/
namespace Sys2Proof

/-- Why a decode gives no instruction. -/
inductive DecodeError where
  /-- Fewer bits remain than the width asks for (40 R123). -/
  | exhausted
  /-- A width outside 2..12 (40 R125). -/
  | badWidth
  /-- A `CTRL` write with bit 0 clear is no command (30 R97). -/
  | notACommand
  deriving DecidableEq, Repr

/-- `BIT(p)` of 20 R63: least-significant-bit-first within each byte. -/
def streamBit (bytes : List Byte) (p : Nat) : Bool :=
  match bytes[p / 8]? with
  | some b => b.getLsbD (p % 8)
  | none => false

/-- `sum over i in 0..w-1 of BIT(p + i) × 2^i` (20 R64). -/
def streamBits (bytes : List Byte) (p : Nat) : Nat → Nat
  | 0 => 0
  | w + 1 => streamBits bytes p w + (streamBit bytes (p + w)).toNat * 2 ^ w

/-- The closed form of `next_code(w)` at bit position `p` (40 R124): the code, or `none` for Exhausted. -/
def codeAt (bytes : List Byte) (p w : Nat) : Option Code :=
  if p + w ≤ 8 * bytes.length then some (BitVec.ofNat 12 (streamBits bytes p w)) else none

/-- The opcode map (30 R93), total: the rows in their order, and `UNASSIGNED` for every other code. -/
def classify (x : CodeCtx) (c : Code) : Instr :=
  if c.toNat = clearCode x.n then .clr
  else if c.toNat = eoiCode x.n then .eoi
  else if c.toNat < clearCode x.n then .lit c
  else if x.prevValid = true ∧ firstFree x.n ≤ c.toNat ∧ c.toNat < x.next.toNat then .ref c
  else if x.prevValid = true ∧ c.toNat = x.next.toNat ∧ x.next.toNat < dictSize then .kwk
  else .unassigned c

/-- The command in a word written to `CTRL`: match and mask `0x00000001`, bits 31:1 ignored (30 R97, 10 R26). -/
def decodeCtrl (v : Word) : Except DecodeError Instr :=
  if v &&& 1#32 = 1#32 then .ok .start else .error .notACommand

/-- The instruction the block receives, in the engine context `x`. -/
def decode (x : CodeCtx) : Stimulus → Except DecodeError Instr
  | .code c => .ok (classify x c)
  | .ctrl v => decodeCtrl v
  | .resetInput => .ok .rst

/-- Decoding at bit position `p` of any bytes, at the current width: the instruction and the position after its code, or
the reason there is none. -/
def decodeStream (x : CodeCtx) (w : Nat) (bytes : List Byte) (p : Nat) : Except DecodeError (Instr × Nat) :=
  if legalWidth w then
    match codeAt bytes p w with
    | some c => .ok (classify x c, p + w)
    | none => .error .exhausted
  else .error .badWidth

/-- The instruction in a word numbered as the opcode table numbers it. The table gives a bit pattern of its own to `START`
alone (a word of the register `CTRL`); a code's bits say nothing without the engine context, and `RST` has none (log 10). -/
def decodeTableWord (nbits w : Nat) : Option Instr :=
  (decodeCtrl (BitVec.ofNat 32 (lowBits w nbits))).toOption

/-- The code value of each instruction (30 R93, R98), the word written for `START` and the reset input for `RST` (R97). -/
def encode (x : CodeCtx) : Instr → Stimulus
  | .clr => .code (BitVec.ofNat 12 (clearCode x.n))
  | .eoi => .code (BitVec.ofNat 12 (eoiCode x.n))
  | .lit k => .code k
  | .ref c => .code c
  | .kwk => .code (BitVec.ofNat 12 x.next.toNat)
  | .unassigned c => .code c
  | .start => .ctrl 1#32
  | .rst => .resetInput

/-- What the packer tracks to know each code's width (30 R99). -/
structure Track where
  n : Nat
  width : Nat
  next : Nat
  prevValid : Bool
  deriving DecidableEq, Repr

/-- The packer's start: `WIDTH = n+1`, `NEXT = CLEAR+2`, no predecessor (30 R99). -/
def Track.start (n : Nat) : Track := ⟨n, n + 1, firstFree n, false⟩

/-- What the packer does after a code (30 R99). -/
def Track.after (t : Track) (c : Code) : Track :=
  if c.toNat = clearCode t.n then Track.start t.n
  else if c.toNat = eoiCode t.n then t
  else if t.prevValid = false then { t with prevValid := true }
  else if t.next < dictSize then
    { t with next := t.next + 1, width := if 2 ^ t.width - 1 < t.next + 1 ∧ t.width < codeMaxW then t.width + 1 else t.width }
  else t

/-- The packer's inner loop (30 R99): whole bytes leave the accumulator. At most 7 + 12 bits are held, so two rounds do. -/
def drainBytes : Nat → Nat → Nat → List Byte × Nat × Nat
  | 0, acc, nb => ([], acc, nb)
  | f + 1, acc, nb =>
    if 8 ≤ nb then
      let r := drainBytes f (acc / 256) (nb - 8)
      (BitVec.ofNat 8 acc :: r.1, r.2)
    else ([], acc, nb)

/-- The packer's loop over the codes; `none` when a code does not fit its width (30 R99). -/
def packFrom (t : Track) (acc nb : Nat) : List Code → Option (List Byte)
  | [] => some (if 0 < nb then [BitVec.ofNat 8 acc] else [])
  | c :: cs =>
    if c.toNat < 2 ^ t.width then
      let r := drainBytes 2 (acc + c.toNat * 2 ^ nb) (nb + t.width)
      (packFrom (t.after c) r.2.1 r.2.2 cs).map (r.1 ++ ·)
    else none

/-- `pack(n, codes)` of 30 R99: notation for writing streams, not hardware. -/
def pack (n : Nat) (codes : List Code) : Option (List Byte) := packFrom (Track.start n) 0 0 codes

/-- Reading `k` codes from bit position `p`, each at the width the engine will have reached (30 R92). -/
def unpackFrom (bytes : List Byte) (t : Track) (p : Nat) : Nat → Option (List Code)
  | 0 => some []
  | k + 1 =>
    match codeAt bytes p t.width with
    | some c => (unpackFrom bytes (t.after c) (p + t.width) k).map (c :: ·)
    | none => none

/-- The first `k` codes of a stream. -/
def unpack (n : Nat) (bytes : List Byte) (k : Nat) : Option (List Code) := unpackFrom bytes (Track.start n) 0 k

end Sys2Proof
end

