-- ==== Sys2Proof/Machine/State.lean ====
section
/-! DEFINITION. The state of the block as plain data (10 R20): host registers, bit reader, engine registers, the three stores;
then the model's own fields. The reasons a step can stop, and the state after reset (10 R50). -/
namespace Sys2Proof.Machine

/-- `STATE` (10 R40). -/
inductive RunState where
  | idle
  | run
  | done
  | error
  deriving DecidableEq, Repr

/-- `ERR`: no error, or the cause of the decode error (10 R41, 60 R201). -/
inductive ErrCode where
  | none
  | trunc
  | unassigned
  | count
  | afterEoi
  | config
  deriving DecidableEq, Repr

/-- A store: (index, entry) pairs. The canonical form is `Memory.wf`: indices strictly rising. An unlisted index holds no value,
so that no listed entry can equal what an unlisted one reads as. -/
abbrev Memory (α : Type) := List (Nat × α)

/-- One stored slot of `DICT` (10 R43). -/
structure DictEntry where
  /-- `PREFIX`: a bound code, below the slot's own. -/
  prefixCode : Code
  /-- `SUFFIX`: the last symbol of the string. -/
  suffixSym : LzwSym
  /-- `FIRST`: the first symbol of the string. -/
  firstSym : LzwSym
  /-- `LEN`: the length of the string. -/
  len : BitVec 13
  deriving DecidableEq, Repr

/-- The bit reader: accumulator and cursor (10 R30 to R32). -/
structure BitReader where
  /-- `ACC`: pending bits, bit 0 the next to be delivered. -/
  acc : BitVec 64
  /-- `NBITS`: how many bits of `ACC` are valid. -/
  nbits : BitVec 7
  /-- `SB_IDX`: the sub-block the next unread byte comes from. -/
  sbIdx : BitVec 32
  /-- `SB_OFF`: the offset of that byte in it. -/
  sbOff : BitVec 8
  deriving DecidableEq, Repr

/-- The bit reader at position 0 with nothing pending (10 R50). -/
def BitReader.empty : BitReader := ⟨0, 0, 0, 0⟩

/-- One move of the host (44 R180 to R185). -/
inductive HostMove where
  | reset
  | regRead (r : Nat)
  | regWrite (r : Nat) (v : Word)
  | inRead (a : Nat)
  | inWrite (a : Nat) (b : Byte)
  | outRead (k : Nat)
  deriving DecidableEq, Repr

/-- Whose turn it is: the engine's or the host's (00 R10; log 7). -/
inductive Turn where
  | engine
  | host (m : HostMove)
  deriving DecidableEq, Repr

/-- The whole state. -/
structure State where
  /-- `STATE` (10 R40). -/
  state : RunState
  /-- `ERR` (10 R41). -/
  err : ErrCode
  /-- `MCS` (10 R21). -/
  mcs : BitVec 8
  /-- `IMG_W` (10 R22). -/
  imgW : BitVec 16
  /-- `IMG_H` (10 R23). -/
  imgH : BitVec 16
  /-- `SB_COUNT` (10 R25). -/
  sbCount : BitVec 32
  /-- `OUT_COUNT` (10 R28). -/
  outCount : BitVec 32
  /-- `ACC`, `NBITS`, `SB_IDX`, `SB_OFF` (10 R30 to R32). -/
  reader : BitReader
  /-- `WIDTH` (10 R35). -/
  width : BitVec 4
  /-- `NEXT` (10 R36). -/
  next : BitVec 13
  /-- `PREV` and `PREV_VALID` (10 R37, R38): no value exactly when `PREV_VALID = 0` (93 U11, log 3). -/
  prev : Option Code
  /-- `IN`, by byte index `256 × i + b` (20 R61). -/
  inMem : Memory Byte
  /-- `DICT`, by code (10 R43). -/
  dict : Memory DictEntry
  /-- `OUT`, by position (10 R46). -/
  out : Memory LzwSym
  /-- The model's own: the open parameters (00 R6, log 1). -/
  cfg : Params
  /-- The model's own: the turns to come, oldest first (log 7). -/
  agenda : List Turn
  /-- The model's own: the word the last host read returned (log 7). -/
  hostData : Word
  /-- The model's own: the number of the next free value (log 4 and 6). -/
  freeCtr : Nat
  /-- The model's own: which free contents the unwritten bytes of `IN` have (log 5). -/
  inEpoch : Nat
  deriving DecidableEq, Repr

/-- Why the machine stops. None of these is a behaviour of the block; all are safe, and all but `inAddress` are raised only in
states no run reaches. -/
inductive Fault where
  /-- A host access to a byte of `IN` at or beyond `256 × SB_MAX` (44 R184). Raised by `inRead`, `inWrite`. Safe (log 13). -/
  | inAddress
  /-- A read of `DICT` at a code that holds no string (10 R42, 93 U1). Raised by LIT, REF and KWK. Safe (log 11). -/
  | unboundCode
  /-- A read of `PREV` when it holds no value (10 R37, 93 U11). Raised by REF and KWK. Safe (log 11). -/
  | noPredecessor
  /-- KWK with `NEXT = 4096`, which no code can express (42 R152 (c)). Raised by KWK. Safe (log 11). -/
  | dictionaryFull
  deriving DecidableEq, Repr

/-- Why an instruction has no meaning. -/
inductive Refusal where
  /-- An instruction without a meaning yet. Raised by no arm of exec now. Safe. -/
  | notModelled (mnemonic : String)
  deriving DecidableEq, Repr

/-- What a meaning answers. -/
abbrev Answer := Host.Outcome State Fault Refusal

/-- The machine right after reset (10 R50). DESIGN CHOICE: `WIDTH` and `NEXT`, which R50 leaves unspecified, are 0 (log 2);
the parameters and the model's own fields are as logs 1, 4, 5 and 7 name them. -/
def State.reset : State where
  state := .idle
  err := .none
  mcs := 0
  imgW := 0
  imgH := 0
  sbCount := 0
  outCount := 0
  reader := BitReader.empty
  width := 0
  next := 0
  prev := none
  inMem := []
  dict := []
  out := []
  cfg := Params.standard
  agenda := []
  hostData := 0
  freeCtr := 1
  inEpoch := 0

end Sys2Proof.Machine
end

