-- ==== Sys2Proof/Machine/Memory.lean ====
section
/-! DEFINITION. The operations on a store (20 R60, R67): one entry read or written at an integer index, and the canonical form
they keep. -/
namespace Sys2Proof.Machine

/-- The entry at an index, or `none` where nothing has been written. -/
def Memory.read? {α : Type} : Memory α → Nat → Option α
  | [], _ => none
  | (k, v) :: rest, a => if k = a then some v else Memory.read? rest a

/-- The store with one entry written, its indices still rising. -/
def Memory.write {α : Type} : Memory α → Nat → α → Memory α
  | [], a, v => [(a, v)]
  | (k, x) :: rest, a, v =>
    if a < k then (a, v) :: (k, x) :: rest
    else if a = k then (a, v) :: rest
    else (k, x) :: Memory.write rest a v

/-- The entries `vs` written at `a`, `a+1`, … in order. -/
def Memory.writeList {α : Type} : Memory α → Nat → List α → Memory α
  | m, _, [] => m
  | m, a, v :: vs => Memory.writeList (Memory.write m a v) (a + 1) vs

/-- The canonical form: indices strictly rising. -/
abbrev Memory.wf {α : Type} (m : Memory α) : Prop := m.Pairwise (fun p q => p.1 < q.1)

end Sys2Proof.Machine
end

