-- ==== Sys2Proof/Machine/Operands.lean ====
section
/-! DEFINITION. The operands of the instructions: the engine context of a code, the input bytes, and the strings that codes
stand for (10 R42, R43; the helpers First and Len of 42). -/
namespace Sys2Proof.Machine

/-- `n`, the value of `MCS` (10 R21). -/
def State.n (s : State) : Nat := s.mcs.toNat

/-- `PREV_VALID` (10 R38). -/
def State.prevValid (s : State) : Bool := s.prev.isSome

/-- What the classification of the next code reads (30 R93). -/
def State.ctx (s : State) : CodeCtx := ⟨s.n, s.next, s.prevValid⟩

/-- `EXPECT = IMG_W × IMG_H` (10 R24). -/
def State.expect (s : State) : Word := s.imgW.setWidth 32 * s.imgH.setWidth 32

/-- The byte of `IN` at index `a`: what was written since the last RST, or the free contents (93 U5, log 5). -/
def State.inByte (s : State) (a : Nat) : Byte := (s.inMem.read? a).getD (Config.freeInByte s.inEpoch a)

/-- `SB_LEN[i]`: byte 0 of slot `i` (20 R61). -/
def State.sbLen (s : State) (i : Nat) : Byte := s.inByte (256 * i)

/-- `SB[i][j]`: byte `j + 1` of slot `i` (20 R61). -/
def State.sbByte (s : State) (i j : Nat) : Byte := s.inByte (256 * i + 1 + j)

/-- The payload of sub-block `i` (10 R48). -/
def State.sbPayload (s : State) (i : Nat) : List Byte := (List.range (s.sbLen i).toNat).map (s.sbByte i)

/-- `IN_BYTES`: the payloads in chain order (20 R62). -/
def State.inBytes (s : State) : List Byte := (List.range s.sbCount.toNat).flatMap s.sbPayload

/-- `CONSUMED`: the number of input bytes moved into `ACC` (10 R33). -/
def State.consumed (s : State) : Nat :=
  ((List.range s.reader.sbIdx.toNat).map fun i => (s.sbLen i).toNat).sum + s.reader.sbOff.toNat

/-- `BITPOS = 8 × CONSUMED − NBITS` (10 R33). -/
def State.bitpos (s : State) : Nat := 8 * s.consumed - s.reader.nbits.toNat

/-- The codes that have a slot: `FIRST_FREE ≤ c < NEXT` (10 R42). -/
abbrev State.assigned (s : State) (c : Code) : Prop := firstFree s.n ≤ c.toNat ∧ c.toNat < s.next.toNat

/-- `DICT[c]` of an assigned code; an unbound code holds no value (10 R42, log 11). -/
def State.slot? (s : State) (c : Code) : Option DictEntry :=
  if s.assigned c then s.dict.read? c.toNat else none

/-- `First(c)`: the first symbol of `STR(c)` (42). -/
def State.first? (s : State) (c : Code) : Option LzwSym :=
  if c.toNat < clearCode s.n then some c else (s.slot? c).map (·.firstSym)

/-- `Len(c)`: the length of `STR(c)` (42). -/
def State.len? (s : State) (c : Code) : Option (BitVec 13) :=
  if c.toNat < clearCode s.n then some 1 else (s.slot? c).map (·.len)

/-- `STR(c)` along at most `f` links of the chain of prefixes (10 R42). -/
def State.strWithin (s : State) : Nat → Code → Option (List LzwSym)
  | 0, _ => none
  | f + 1, c =>
    if c.toNat < clearCode s.n then some [c]
    else
      match s.slot? c with
      | some e => (State.strWithin s f e.prefixCode).map (· ++ [e.suffixSym])
      | none => none

/-- `STR(c)`: a chain of falling codes has at most 4096 links (10 R44). -/
def State.str? (s : State) (c : Code) : Option (List LzwSym) := s.strWithin dictSize c

end Sys2Proof.Machine
end

