-- ==== Sys2Proof/Machine/Flags.lean ====
section
/-! DEFINITION. The conditions the rules test and the status word: the growth test (42 R155), the full dictionary (42 R156), the
count tests (43 R171, R172), the START tests (44 R181), and the fields of `STATUS` (10 R27). -/
namespace Sys2Proof.Machine

/-- The dictionary is full: there is no slot to assign (42 R156). -/
abbrev State.dictFull (s : State) : Prop := dictSize ≤ s.next.toNat

/-- The test of `GrowWidth`, made on the incremented `NEXT` (42 R155). -/
abbrev growTest (next : BitVec 13) (width : BitVec 4) : Prop :=
  2 ^ width.toNat - 1 < next.toNat ∧ width.toNat < codeMaxW

/-- `OUT_COUNT + L > EXPECT` over the natural numbers (43 R170). -/
abbrev State.overflows (s : State) (len : Nat) : Prop := s.expect.toNat < s.outCount.toNat + len

/-- `MCS` outside 1..11 (44 R181). -/
abbrev State.badMcs (s : State) : Prop := s.n < nMin ∨ nMax < s.n

/-- `EXPECT` over the capacity of `OUT` (44 R181). -/
abbrev State.tooBig (s : State) : Prop := s.cfg.outCap.toNat < s.expect.toNat

/-- More sub-blocks than the store has slots (44 R181). -/
abbrev State.tooMany (s : State) : Prop := s.cfg.sbMax < s.sbCount.toNat

/-- The number of `STATE` in `STATUS` bits 1:0 (10 R27). -/
def RunState.toBits : RunState → BitVec 2
  | .idle => 0
  | .run => 1
  | .done => 2
  | .error => 3

/-- The number of `ERR` in `STATUS` bits 6:4 (10 R27, 60 R201). -/
def ErrCode.toBits : ErrCode → BitVec 3
  | .none => 0
  | .trunc => 1
  | .unassigned => 2
  | .count => 3
  | .afterEoi => 4
  | .config => 5

/-- `STATUS`: reserved bits read 0 (10 R27). -/
def State.status (s : State) : Word :=
  (s.err.toBits.setWidth 32 <<< 4) ||| s.state.toBits.setWidth 32

end Sys2Proof.Machine
end

