-- ==== Sys2Proof/Machine/Ops.lean ====
section
/-! DEFINITION. The named operations on the state: raising an error (60 R200), the bit reader (40 R120 to R126), emission
(43 R170), assignment and width growth (42 R154, R155), and the shared tail of the three string instructions. -/
namespace Sys2Proof.Machine

/-- `raise E`: the cause and the halted state, nothing else (60 R200). -/
def State.raise (e : ErrCode) (s : State) : State := { s with err := e, state := .error }

/-- The engine halts with a valid output (41 R142). -/
def State.finish (s : State) : State := { s with state := .done }

/-- The bit reader's registers written. -/
def State.setReader (r : BitReader) (s : State) : State := { s with reader := r }

/-- `PREV <- c`, `PREV_VALID <- 1`. -/
def State.setPrev (c : Code) (s : State) : State := { s with prev := some c }

/-- The turns to come. -/
def State.setAgenda (l : List Turn) (s : State) : State := { s with agenda := l }

/-- The word a host read returns (log 7). -/
def State.answer (v : Word) (s : State) : State := { s with hostData := v }

/-- The post-Clear dictionary state: base literals only, `WIDTH = n + 1`, no predecessor (41 R141, 44 R181). -/
def State.clearDict (s : State) : State :=
  { s with next := BitVec.ofNat 13 (firstFree s.n), width := BitVec.ofNat 4 (s.n + 1), prev := none }

/-- The loop of `MoreBytes()`: finished and empty sub-blocks are left (40 R126). `f` bounds the rounds. -/
def State.skipDone (s : State) : Nat → BitReader → BitReader
  | 0, r => r
  | f + 1, r =>
    if r.sbIdx.toNat < s.sbCount.toNat ∧ r.sbOff = s.sbLen r.sbIdx.toNat then
      State.skipDone s f { r with sbIdx := r.sbIdx + 1, sbOff := 0 }
    else r

/-- `MoreBytes()` (40 R126): the cursor it leaves; there are as many rounds as sub-blocks remain. -/
def State.moreBytes (s : State) (r : BitReader) : BitReader := s.skipDone (s.sbCount.toNat - r.sbIdx.toNat) r

/-- `NextByte()` and the accumulator update of `Refill`: the byte goes above the pending bits (40 R121, R126). -/
def State.pullByte (s : State) (r : BitReader) : BitReader :=
  { r with
    acc := r.acc ||| ((s.sbByte r.sbIdx.toNat r.sbOff.toNat).setWidth 64 <<< r.nbits.toNat)
    nbits := r.nbits + 8
    sbOff := r.sbOff + 1 }

/-- The loop of `Refill(w)` (40 R121), at most `f` rounds. -/
def State.refillWithin (s : State) (w : Nat) : Nat → BitReader → BitReader
  | 0, r => r
  | f + 1, r =>
    if r.nbits.toNat < w then
      let m := s.moreBytes r
      if m.sbIdx.toNat < s.sbCount.toNat then State.refillWithin s w f (s.pullByte m) else m
    else r

/-- `Refill(w)`: at most two bytes are pulled per call (40 R121). -/
def State.refill (s : State) (w : Nat) (r : BitReader) : BitReader := s.refillWithin w 2 r

/-- The low `w` bits of `ACC` as a code (40 R122). -/
def BitReader.lowCode (r : BitReader) (w : Nat) : Code := BitVec.ofNat 12 (lowBits r.acc.toNat w)

/-- The remaining bits move down by `w` (40 R122). -/
def BitReader.dropBits (r : BitReader) (w : Nat) : BitReader :=
  { r with acc := r.acc >>> w, nbits := r.nbits - BitVec.ofNat 7 w }

/-- `next_code(w)` (40 R120): the code, or `none` for Exhausted, and the state after. -/
def State.nextCode (s : State) (w : Nat) : Option Code × State :=
  let r := s.refill w s.reader
  if r.nbits.toNat < w then (none, s.setReader r)
  else (some (r.lowCode w), s.setReader (r.dropBits w))

/-- The writes of `Emit(S)` (43 R170); the overflow test is `State.overflows`. -/
def State.emit (S : List LzwSym) (s : State) : State :=
  { s with out := s.out.writeList s.outCount.toNat S, outCount := s.outCount + BitVec.ofNat 32 S.length }

/-- `MemWrite(DICT, NEXT, …)`, `NEXT <- NEXT + 1` (42 R154). -/
def State.bindSlot (e : DictEntry) (s : State) : State :=
  { s with dict := s.dict.write s.next.toNat e, next := s.next + 1 }

/-- `GrowWidth()` (42 R155). -/
def State.growWidth (s : State) : State :=
  if growTest s.next s.width then { s with width := s.width + 1 } else s

/-- `Assign(p, x)` (42 R154): binds the next slot to `STR(p) ++ [x]`; nothing when the dictionary is full (42 R156).
`none` when `p` is not bound (log 11). -/
def State.assign? (p : Code) (x : LzwSym) (s : State) : Option State :=
  if s.dictFull then some s
  else
    match s.first? p, s.len? p with
    | some f, some l => some (s.bindSlot ⟨p, x, f, l + 1⟩).growWidth
    | _, _ => none

/-- What LIT with a predecessor, REF and KWK share (42 R150 to R152): emit `S`, or raise `E_COUNT` and do nothing else; assign
`STR(p) ++ [x]`; make `c` the predecessor. -/
def State.emitAssign (S : List LzwSym) (p : Code) (x : LzwSym) (c : Code) (s : State) : Answer :=
  if s.overflows S.length then .next (s.raise .count)
  else
    match (s.emit S).assign? p x with
    | some t => .next (t.setPrev c)
    | none => .fault .unboundCode

end Sys2Proof.Machine
end

