-- ==== Sys2Proof/Machine/Data.lean ====
section
/-! DEFINITION. The data codes LIT, REF, KWK and the unassigned range (42). -/
namespace Sys2Proof.Machine

/-- LIT c (42 R150). -/
def execLit (k : Code) (s : State) : Answer :=
  match s.prev with
  | none => if s.overflows 1 then .next (s.raise .count) else .next ((s.emit [k]).setPrev k)
  | some p => s.emitAssign [k] p k k

/-- REF c (42 R151); requires a predecessor and a bound code. -/
def execRef (c : Code) (s : State) : Answer :=
  match s.prev with
  | none => .fault .noPredecessor
  | some p =>
    match s.str? c, s.first? c with
    | some S, some f => s.emitAssign S p f c
    | _, _ => .fault .unboundCode

/-- KWK (42 R152), the code equal to `NEXT`; requires a predecessor and `NEXT < 4096`. -/
def execKwk (s : State) : Answer :=
  match s.prev with
  | none => .fault .noPredecessor
  | some p =>
    if s.dictFull then .fault .dictionaryFull
    else
      match s.str? p, s.first? p with
      | some S, some f => s.emitAssign (S ++ [f]) p f (s.next.setWidth 12)
      | _, _ => .fault .unboundCode

/-- UNASSIGNED (42 R153): no output, no dictionary access, whatever the code. -/
def execUnassigned (_c : Code) (s : State) : Answer := .next (s.raise .unassigned)

end Sys2Proof.Machine
end

