-- ==== Sys2Proof/Machine/HostCommands.lean ====
section
/-! DEFINITION. The host's two commands START and RST (44). -/
namespace Sys2Proof.Machine

/-- The first statement of START: `ERR <- 0`, `OUT_COUNT <- 0` (44 R181). -/
def State.clearResult (s : State) : State := { s with err := .none, outCount := 0 }

/-- The last statements of START: the bit reader at position 0, the post-Clear dictionary, `RUN` (44 R181). -/
def State.beginRun (s : State) : State := { s.clearDict with reader := BitReader.empty, state := .run }

/-- START (44 R181): the three tests in their order, then the run begins; ignored in `RUN` (R182). -/
def execStart (s : State) : Answer :=
  if s.state = .run then .next s
  else if s.badMcs then .next (s.clearResult.raise .config)
  else if s.tooBig then .next (s.clearResult.raise .config)
  else if s.tooMany then .next (s.clearResult.raise .config)
  else .next s.clearResult.beginRun

/-- RST (44 R180, 10 R50). `WIDTH` and `NEXT` get free values (log 4), `PREV` holds no value (log 3), the three stores have
no contents (logs 5, 11, 12). The host's side of the model and the parameters are not reset (log 7). -/
def execRst (s : State) : Answer :=
  .next
    { s with
      state := .idle, err := .none, mcs := 0, imgW := 0, imgH := 0, sbCount := 0, outCount := 0
      reader := BitReader.empty
      width := Config.freeWidth s.freeCtr
      next := Config.freeNext s.freeCtr
      prev := none
      inMem := [], dict := [], out := []
      inEpoch := s.freeCtr
      freeCtr := s.freeCtr + 1 }

end Sys2Proof.Machine
end

