-- ==== Sys2Proof/Machine/Reserved.lean ====
section
/-! DEFINITION. The reserved codes CLR and EOI (41). -/
namespace Sys2Proof.Machine

/-- CLR (41 R141). `DICT` storage is not erased (10 R45). -/
def execClr (s : State) : Answer := .next s.clearDict

/-- The final count test and the halt of EOI (41 R142, 43 R172). -/
def State.finalCheck (s : State) : State := if s.outCount = s.expect then s.finish else s.raise .count

/-- EOI (41 R142), with the tail fetch when `TAIL_CHECK` is true (R143). -/
def execEoi (s : State) : Answer :=
  if s.cfg.tailCheck then
    match s.nextCode s.width.toNat with
    | (some _, t) => .next (t.raise .afterEoi)
    | (none, t) => .next t.finalCheck
  else .next s.finalCheck

end Sys2Proof.Machine
end

