-- ==== Sys2Proof/Machine/Dispatch.lean ====
section
/-! DEFINITION. exec: one arm per row of the opcode table. -/
namespace Sys2Proof.Machine

def exec (i : Instr) (s : State) : Host.Outcome State Fault Refusal :=
  match i with
  | .clr => Sys2Proof.Machine.execClr s
  | .eoi => Sys2Proof.Machine.execEoi s
  | .lit k => Sys2Proof.Machine.execLit k s
  | .ref c => Sys2Proof.Machine.execRef c s
  | .kwk => Sys2Proof.Machine.execKwk s
  | .unassigned c => Sys2Proof.Machine.execUnassigned c s
  | .start => Sys2Proof.Machine.execStart s
  | .rst => Sys2Proof.Machine.execRst s

end Sys2Proof.Machine
end

