-- ==== Sys2Proof/Machine/Engine.lean ====
section
/-! DEFINITION. The engine step: fetch, decode, execute (40 R130, R131). -/
namespace Sys2Proof.Machine

/-- One engine turn. In `RUN` the step of 40 R131: the fetch at the current `WIDTH`, `E_TRUNC` if it is exhausted, else the
instruction the code selects, in the state after the fetch. Outside `RUN` nothing (R130). -/
def engineStep (s : State) : Answer :=
  if s.state = .run then
    match s.nextCode s.width.toNat with
    | (none, t) => .next (t.raise .trunc)
    | (some c, t) => exec (classify t.ctx c) t
  else .next s

end Sys2Proof.Machine
end

