-- ==== Sys2Proof/Machine/HostAccess.lean ====
section
/-! DEFINITION. The host's moves: the reset input, register, input and output accesses (44 R180, R183 to R185). -/
namespace Sys2Proof.Machine

/-- The value of register `r`, zero-extended (10 R29, 44 R183). -/
def State.regRead (s : State) (r : Nat) : Word :=
  match r with
  | 0 => 0
  | 1 => s.status
  | 2 => s.mcs.setWidth 32
  | 3 => s.imgW.setWidth 32
  | 4 => s.imgH.setWidth 32
  | 5 => s.expect
  | 6 => s.outCount
  | 7 => s.sbCount
  | _ => 0

/-- The effect of a write on a configuration register; every other number is ignored (44 R183). -/
def State.configWrite (s : State) (r : Nat) (v : Word) : State :=
  match r with
  | 2 => { s with mcs := v.setWidth 8 }
  | 3 => { s with imgW := v.setWidth 16 }
  | 4 => { s with imgH := v.setWidth 16 }
  | 7 => { s with sbCount := v }
  | _ => s

/-- RegWrite (44 R183): register 0 takes commands (R181); a write in `RUN` stores nothing. -/
def hostRegWrite (r : Nat) (v : Word) (s : State) : Answer :=
  if r = 0 then
    match decodeCtrl v with
    | .ok i => exec i s
    | .error _ => .next s
  else if s.state = .run then .next s
  else .next (s.configWrite r v)

/-- The number of bytes of `IN`: `SB_MAX` slots of 256 (20 R60). -/
def State.inSize (s : State) : Nat := 256 * s.cfg.sbMax

/-- InRead (44 R184), in any state. -/
def hostInRead (a : Nat) (s : State) : Answer :=
  if a < s.inSize then .next (s.answer ((s.inByte a).setWidth 32)) else .fault .inAddress

/-- `IN` with one byte written. -/
def State.storeIn (s : State) (a : Nat) (b : Byte) : State := { s with inMem := s.inMem.write a b }

/-- InWrite (44 R184): ignored in `RUN`. -/
def hostInWrite (a : Nat) (b : Byte) (s : State) : Answer :=
  if a < s.inSize then .next (if s.state = .run then s else s.storeIn a b) else .fault .inAddress

/-- The index a read of `OUT[k]` must return: one emitted in this run, read outside `RUN` (43 R173). -/
def State.outEntry? (s : State) (k : Nat) : Option LzwSym :=
  if s.state = .run ∨ s.outCount.toNat ≤ k then none else s.out.read? k

/-- OutRead (43 R173): the index zero-extended; where the value is unspecified, a fresh free value (log 6). -/
def hostOutRead (k : Nat) (s : State) : Answer :=
  match s.outEntry? k with
  | some x => .next (s.answer (x.setWidth 32))
  | none => .next { s.answer (Config.freeOutRead s.freeCtr) with freeCtr := s.freeCtr + 1 }

/-- One move of the host. -/
def hostStep (m : HostMove) (s : State) : Answer :=
  match m with
  | .reset => exec .rst s
  | .regRead r => .next (s.answer (s.regRead r))
  | .regWrite r v => hostRegWrite r v s
  | .inRead a => hostInRead a s
  | .inWrite a b => hostInWrite a b s
  | .outRead k => hostOutRead k s

end Sys2Proof.Machine
end

