-- ==== Sys2Proof/Machine/Step.lean ====
section
/-! DEFINITION. One step of the machine: the turn at the head of the agenda, and the engine's when none is listed (log 7). -/
namespace Sys2Proof.Machine

/-- One step: an engine turn or one host move, each atomic (00 R3, R10). -/
def step (s : State) : Host.Outcome State Fault Refusal :=
  match s.agenda with
  | [] => engineStep s
  | .engine :: rest => engineStep (s.setAgenda rest)
  | .host m :: rest => hostStep m (s.setAgenda rest)

/-- `s` with the table word `w` written to `CTRL` as the host's next move: the one place where a word of the opcode table
reaches the block (30 R97, log 9). -/
def State.withFetchWord (s : State) (nbits w : Nat) : State :=
  s.setAgenda (.host (.regWrite 0 (BitVec.ofNat 32 (lowBits w nbits))) :: s.agenda)

end Sys2Proof.Machine
end

