-- ==== Sys2Proof/Safety.lean ====
section
/-! DEFINITION. What the claims speak of: the result of a run (10 R47), the invariants of the bit reader, the dictionary and a
running engine (10 §4 to §7), and the groups of state that a rule leaves alone. -/
namespace Sys2Proof.Machine

/-- `Result` (10 R47). -/
inductive Result where
  /-- `IDLE` or `RUN`: no result. -/
  | absent
  | ok (indices : List LzwSym)
  | err (cause : ErrCode)
  deriving DecidableEq, Repr

/-- The entry `OUT[k]` of a result: the index emitted in this run; at or above `OUT_COUNT`, where `OUT` is unspecified (43 R173),
a free value (log 14). -/
def State.resultEntry (s : State) (k : Nat) : LzwSym := (s.outEntry? k).getD (Config.freeOutEntry s.freeCtr k)

/-- The result of a halted state (10 R47): in `DONE` exactly `EXPECT` indices, `OUT[0 .. EXPECT−1]`; in `ERROR` the cause, with no
index. -/
def State.result (s : State) : Result :=
  match s.state with
  | .done => .ok ((List.range s.expect.toNat).map s.resultEntry)
  | .error => .err s.err
  | _ => .absent

/-- A bound code: a base literal or an assigned code (10 R42). -/
abbrev State.bound (s : State) (c : Code) : Prop := c.toNat < clearCode s.n ∨ s.assigned c

/-- What 10 R43 and R44 say of the slot `e` of an assigned code `c`. -/
structure SlotOk (s : State) (c : Code) (e : DictEntry) : Prop where
  prefix_lt : e.prefixCode.toNat < c.toNat
  prefix_bound : s.bound e.prefixCode
  suffix_lt : e.suffixSym.toNat < clearCode s.n
  first_lt : e.firstSym.toNat < clearCode s.n
  first_eq : s.first? e.prefixCode = some e.firstSym
  len_eq : ∃ l : BitVec 13, s.len? e.prefixCode = some l ∧ e.len.toNat = l.toNat + 1
  len_ge : 2 ≤ e.len.toNat
  len_le : e.len.toNat + clearCode s.n ≤ c.toNat

/-- Every assigned code has its slot (10 R42 to R44). -/
def DictInv (s : State) : Prop := ∀ c : Code, s.assigned c → ∃ e, s.dict.read? c.toNat = some e ∧ SlotOk s c e

/-- The bit reader between two fetches: 10 R30 to R33, R49. The last clause is R49's: the pending bits are the bits of `IN` at
their positions. -/
structure ReaderInv (s : State) : Prop where
  nbits_le : s.reader.nbits.toNat ≤ 19
  acc_lt : s.reader.acc.toNat < 2 ^ s.reader.nbits.toNat
  idx_le : s.reader.sbIdx.toNat ≤ s.sbCount.toNat
  off_le : s.reader.sbIdx.toNat < s.sbCount.toNat → s.reader.sbOff.toNat ≤ (s.sbLen s.reader.sbIdx.toNat).toNat
  off_end : s.reader.sbIdx.toNat = s.sbCount.toNat → s.reader.sbOff = 0
  nbits_le_consumed : s.reader.nbits.toNat ≤ 8 * s.consumed
  pending : ∀ i < s.reader.nbits.toNat, s.reader.acc.getLsbD i = streamBit s.inBytes (s.bitpos + i)

/-- 10 R39: one of its three cases. -/
def WidthRelation (s : State) : Prop :=
  s.next.toNat ≤ 2 ^ s.width.toNat - 1 ∨ (s.width.toNat = codeMaxW ∧ s.next.toNat = dictSize) ∨
    (s.n = 1 ∧ s.width.toNat = 2 ∧ s.next.toNat = 4)

/-- The invariants of a running engine: START's tests (44 R181), 10 R28, R32, R35 to R39, R44, 43 R171, R174. -/
structure RunInv (s : State) : Prop where
  n_ge : nMin ≤ s.n
  n_le : s.n ≤ nMax
  expect_le : s.expect.toNat ≤ s.cfg.outCap.toNat
  count_le_max : s.sbCount.toNat ≤ s.cfg.sbMax
  width_ge : s.n + 1 ≤ s.width.toNat
  width_le : s.width.toNat ≤ codeMaxW
  next_ge : firstFree s.n ≤ s.next.toNat
  next_le : s.next.toNat ≤ dictSize
  width_next : WidthRelation s
  no_prev : s.prev = none → s.next.toNat = firstFree s.n
  prev_bound : ∀ p, s.prev = some p → s.bound p
  dict : DictInv s
  out_le : s.outCount.toNat ≤ s.expect.toNat
  out_lt : ∀ k < s.outCount.toNat, ∃ x, s.out.read? k = some x ∧ x.toNat < clearCode s.n
  reader : ReaderInv s

/-- The invariant of the machine: canonical stores, `ERR ≠ 0` exactly in `ERROR` (10 R27), and the running engine's. -/
structure MachineInv (s : State) : Prop where
  in_wf : s.inMem.wf
  dict_wf : s.dict.wf
  out_wf : s.out.wf
  err_iff : s.err ≠ .none ↔ s.state = .error
  run : s.state = .run → RunInv s

/-- The input and configuration of a run are the same in both states: `MCS`, `IMG_W`, `IMG_H`, `SB_COUNT` and every byte of
`IN`, written or not (20 R77). -/
structure SameInput (s t : State) : Prop where
  mcs : t.mcs = s.mcs
  imgW : t.imgW = s.imgW
  imgH : t.imgH = s.imgH
  sbCount : t.sbCount = s.sbCount
  inMem : t.inMem = s.inMem
  inEpoch : t.inEpoch = s.inEpoch

/-- The model's own fields outside the block are the same: parameters, agenda, the word of the last read, and the count of
free values drawn. -/
structure SameSurroundings (s t : State) : Prop where
  cfg : t.cfg = s.cfg
  agenda : t.agenda = s.agenda
  hostData : t.hostData = s.hostData
  freeCtr : t.freeCtr = s.freeCtr

/-- The dictionary engine is the same: `WIDTH`, `NEXT`, `PREV`, `PREV_VALID` and every slot of `DICT`. -/
structure SameDictionary (s t : State) : Prop where
  width : t.width = s.width
  next : t.next = s.next
  prev : t.prev = s.prev
  dict : t.dict = s.dict

/-- The output buffer is the same: `OUT_COUNT` and every entry of `OUT`. -/
structure SameOutput (s t : State) : Prop where
  outCount : t.outCount = s.outCount
  out : t.out = s.out

/-- Everything but `STATE` and `ERR` is the same. -/
structure SameButStatus (s t : State) : Prop where
  input : SameInput s t
  surroundings : SameSurroundings s t
  dictionary : SameDictionary s t
  output : SameOutput s t
  reader : t.reader = s.reader

/-- What `Emit(S)` leaves (43 R170): the count, the indices in order, every other entry as before. -/
structure Emitted (S : List LzwSym) (s t : State) : Prop where
  count : t.outCount.toNat = s.outCount.toNat + S.length
  entries : ∀ i < S.length, t.out.read? (s.outCount.toNat + i) = S[i]?
  others : ∀ k, k < s.outCount.toNat ∨ s.outCount.toNat + S.length ≤ k → t.out.read? k = s.out.read? k

/-- What `Assign(p, x)` leaves (42 R154 to R156): with room, the slot `NEXT` bound, `NEXT` one higher, `WIDTH` grown by the rule
and every other slot as before; with a full dictionary, nothing changed. -/
structure Assigned (p : Code) (x : LzwSym) (s t : State) : Prop where
  slot : s.next.toNat < dictSize → ∃ f l, s.first? p = some f ∧ s.len? p = some l ∧
    t.dict.read? s.next.toNat = some ⟨p, x, f, l + 1⟩
  others : ∀ c, c ≠ s.next.toNat → t.dict.read? c = s.dict.read? c
  next : t.next.toNat = if s.next.toNat < dictSize then s.next.toNat + 1 else s.next.toNat
  width : t.width.toNat =
    if s.next.toNat < dictSize ∧ 2 ^ s.width.toNat - 1 < s.next.toNat + 1 ∧ s.width.toNat < codeMaxW then s.width.toNat + 1
    else s.width.toNat
  full : dictSize ≤ s.next.toNat → t.dict = s.dict

/-- `p` is a code whose string is known: its first symbol and length can be read (42, First and Len). -/
abbrev State.known (s : State) (p : Code) : Prop := (s.first? p).isSome ∧ (s.len? p).isSome

/-- What the packer tracks (30 R99), as the engine holds it: `n`, `WIDTH`, `NEXT`, `PREV_VALID`. -/
def State.track (s : State) : Track := ⟨s.n, s.width.toNat, s.next.toNat, s.prevValid⟩

/-- The turn is the engine's: nothing listed, or an engine turn at the head of the agenda. -/
def State.engineTurn (s : State) : Prop := s.agenda = [] ∨ ∃ rest, s.agenda = .engine :: rest

/-- The host's next move, if it is the host's turn. -/
def State.hostMove? (s : State) : Option HostMove :=
  match s.agenda with
  | .host m :: _ => some m
  | _ => none

/-- The host's next move is a START: a write of `CTRL` with bit 0 set (30 R97). -/
def State.hostStarts (s : State) : Prop := ∃ v : Word, s.hostMove? = some (.regWrite 0 v) ∧ v.getLsbD 0 = true

/-- The host's turns among `ts`. -/
def hostTurns (ts : List Turn) : Nat := ts.countP (· ≠ .engine)

/-- The move lies within the block's address space: an access to `IN` at a byte the store has (44 R184, log 13). -/
def HostMove.inStore (m : HostMove) (s : State) : Prop :=
  match m with
  | .inRead a | .inWrite a _ => a < s.inSize
  | _ => True

/-- Two states that differ at most in how the input bytes are split into sub-blocks and in how far the bit reader has read
ahead (20 R62): the same flat input, the same `BITPOS`, and every other register and store the same. -/
structure SameButSplit (s t : State) : Prop where
  state : t.state = s.state
  err : t.err = s.err
  mcs : t.mcs = s.mcs
  imgW : t.imgW = s.imgW
  imgH : t.imgH = s.imgH
  inBytes : t.inBytes = s.inBytes
  bitpos : t.bitpos = s.bitpos
  dictionary : SameDictionary s t
  output : SameOutput s t
  outCap : t.cfg.outCap = s.cfg.outCap
  tailCheck : t.cfg.tailCheck = s.cfg.tailCheck
  agenda : t.agenda = s.agenda

end Sys2Proof.Machine
end

