-- ==== Sys2Proof/Laws/State.lean ====
section
/-! SUPPORT. One lemma per field per named update of State, each true by rfl, so that no proof unfolds a record update. -/
namespace Sys2Proof.Machine

/-! `State.raise` -/
@[simp] theorem State.raise_state (s : State) (e : ErrCode) : (s.raise e).state = .error := rfl
@[simp] theorem State.raise_err (s : State) (e : ErrCode) : (s.raise e).err = e := rfl
@[simp] theorem State.raise_mcs (s : State) (e : ErrCode) : (s.raise e).mcs = s.mcs := rfl
@[simp] theorem State.raise_imgW (s : State) (e : ErrCode) : (s.raise e).imgW = s.imgW := rfl
@[simp] theorem State.raise_imgH (s : State) (e : ErrCode) : (s.raise e).imgH = s.imgH := rfl
@[simp] theorem State.raise_sbCount (s : State) (e : ErrCode) : (s.raise e).sbCount = s.sbCount := rfl
@[simp] theorem State.raise_outCount (s : State) (e : ErrCode) : (s.raise e).outCount = s.outCount := rfl
@[simp] theorem State.raise_reader (s : State) (e : ErrCode) : (s.raise e).reader = s.reader := rfl
@[simp] theorem State.raise_width (s : State) (e : ErrCode) : (s.raise e).width = s.width := rfl
@[simp] theorem State.raise_next (s : State) (e : ErrCode) : (s.raise e).next = s.next := rfl
@[simp] theorem State.raise_prev (s : State) (e : ErrCode) : (s.raise e).prev = s.prev := rfl
@[simp] theorem State.raise_inMem (s : State) (e : ErrCode) : (s.raise e).inMem = s.inMem := rfl
@[simp] theorem State.raise_dict (s : State) (e : ErrCode) : (s.raise e).dict = s.dict := rfl
@[simp] theorem State.raise_out (s : State) (e : ErrCode) : (s.raise e).out = s.out := rfl
@[simp] theorem State.raise_cfg (s : State) (e : ErrCode) : (s.raise e).cfg = s.cfg := rfl
@[simp] theorem State.raise_agenda (s : State) (e : ErrCode) : (s.raise e).agenda = s.agenda := rfl
@[simp] theorem State.raise_hostData (s : State) (e : ErrCode) : (s.raise e).hostData = s.hostData := rfl
@[simp] theorem State.raise_freeCtr (s : State) (e : ErrCode) : (s.raise e).freeCtr = s.freeCtr := rfl
@[simp] theorem State.raise_inEpoch (s : State) (e : ErrCode) : (s.raise e).inEpoch = s.inEpoch := rfl
@[simp] theorem State.raise_n (s : State) (e : ErrCode) : (s.raise e).n = s.n := rfl
@[simp] theorem State.raise_expect (s : State) (e : ErrCode) : (s.raise e).expect = s.expect := rfl
@[simp] theorem State.raise_prevValid (s : State) (e : ErrCode) : (s.raise e).prevValid = s.prevValid := rfl
@[simp] theorem State.raise_ctx (s : State) (e : ErrCode) : (s.raise e).ctx = s.ctx := rfl

/-! `State.finish` -/
@[simp] theorem State.finish_state (s : State) : s.finish.state = .done := rfl
@[simp] theorem State.finish_err (s : State) : s.finish.err = s.err := rfl
@[simp] theorem State.finish_mcs (s : State) : s.finish.mcs = s.mcs := rfl
@[simp] theorem State.finish_imgW (s : State) : s.finish.imgW = s.imgW := rfl
@[simp] theorem State.finish_imgH (s : State) : s.finish.imgH = s.imgH := rfl
@[simp] theorem State.finish_sbCount (s : State) : s.finish.sbCount = s.sbCount := rfl
@[simp] theorem State.finish_outCount (s : State) : s.finish.outCount = s.outCount := rfl
@[simp] theorem State.finish_reader (s : State) : s.finish.reader = s.reader := rfl
@[simp] theorem State.finish_width (s : State) : s.finish.width = s.width := rfl
@[simp] theorem State.finish_next (s : State) : s.finish.next = s.next := rfl
@[simp] theorem State.finish_prev (s : State) : s.finish.prev = s.prev := rfl
@[simp] theorem State.finish_inMem (s : State) : s.finish.inMem = s.inMem := rfl
@[simp] theorem State.finish_dict (s : State) : s.finish.dict = s.dict := rfl
@[simp] theorem State.finish_out (s : State) : s.finish.out = s.out := rfl
@[simp] theorem State.finish_cfg (s : State) : s.finish.cfg = s.cfg := rfl
@[simp] theorem State.finish_agenda (s : State) : s.finish.agenda = s.agenda := rfl
@[simp] theorem State.finish_hostData (s : State) : s.finish.hostData = s.hostData := rfl
@[simp] theorem State.finish_freeCtr (s : State) : s.finish.freeCtr = s.freeCtr := rfl
@[simp] theorem State.finish_inEpoch (s : State) : s.finish.inEpoch = s.inEpoch := rfl
@[simp] theorem State.finish_n (s : State) : s.finish.n = s.n := rfl
@[simp] theorem State.finish_expect (s : State) : s.finish.expect = s.expect := rfl
@[simp] theorem State.finish_prevValid (s : State) : s.finish.prevValid = s.prevValid := rfl
@[simp] theorem State.finish_ctx (s : State) : s.finish.ctx = s.ctx := rfl

/-! `State.setReader` -/
@[simp] theorem State.setReader_state (s : State) (r : BitReader) : (s.setReader r).state = s.state := rfl
@[simp] theorem State.setReader_err (s : State) (r : BitReader) : (s.setReader r).err = s.err := rfl
@[simp] theorem State.setReader_mcs (s : State) (r : BitReader) : (s.setReader r).mcs = s.mcs := rfl
@[simp] theorem State.setReader_imgW (s : State) (r : BitReader) : (s.setReader r).imgW = s.imgW := rfl
@[simp] theorem State.setReader_imgH (s : State) (r : BitReader) : (s.setReader r).imgH = s.imgH := rfl
@[simp] theorem State.setReader_sbCount (s : State) (r : BitReader) : (s.setReader r).sbCount = s.sbCount := rfl
@[simp] theorem State.setReader_outCount (s : State) (r : BitReader) : (s.setReader r).outCount = s.outCount := rfl
@[simp] theorem State.setReader_reader (s : State) (r : BitReader) : (s.setReader r).reader = r := rfl
@[simp] theorem State.setReader_width (s : State) (r : BitReader) : (s.setReader r).width = s.width := rfl
@[simp] theorem State.setReader_next (s : State) (r : BitReader) : (s.setReader r).next = s.next := rfl
@[simp] theorem State.setReader_prev (s : State) (r : BitReader) : (s.setReader r).prev = s.prev := rfl
@[simp] theorem State.setReader_inMem (s : State) (r : BitReader) : (s.setReader r).inMem = s.inMem := rfl
@[simp] theorem State.setReader_dict (s : State) (r : BitReader) : (s.setReader r).dict = s.dict := rfl
@[simp] theorem State.setReader_out (s : State) (r : BitReader) : (s.setReader r).out = s.out := rfl
@[simp] theorem State.setReader_cfg (s : State) (r : BitReader) : (s.setReader r).cfg = s.cfg := rfl
@[simp] theorem State.setReader_agenda (s : State) (r : BitReader) : (s.setReader r).agenda = s.agenda := rfl
@[simp] theorem State.setReader_hostData (s : State) (r : BitReader) : (s.setReader r).hostData = s.hostData := rfl
@[simp] theorem State.setReader_freeCtr (s : State) (r : BitReader) : (s.setReader r).freeCtr = s.freeCtr := rfl
@[simp] theorem State.setReader_inEpoch (s : State) (r : BitReader) : (s.setReader r).inEpoch = s.inEpoch := rfl
@[simp] theorem State.setReader_n (s : State) (r : BitReader) : (s.setReader r).n = s.n := rfl
@[simp] theorem State.setReader_expect (s : State) (r : BitReader) : (s.setReader r).expect = s.expect := rfl
@[simp] theorem State.setReader_prevValid (s : State) (r : BitReader) : (s.setReader r).prevValid = s.prevValid := rfl
@[simp] theorem State.setReader_ctx (s : State) (r : BitReader) : (s.setReader r).ctx = s.ctx := rfl
@[simp] theorem State.setReader_status (s : State) (r : BitReader) : (s.setReader r).status = s.status := rfl

/-! `State.setPrev` -/
@[simp] theorem State.setPrev_state (s : State) (c : Code) : (s.setPrev c).state = s.state := rfl
@[simp] theorem State.setPrev_err (s : State) (c : Code) : (s.setPrev c).err = s.err := rfl
@[simp] theorem State.setPrev_mcs (s : State) (c : Code) : (s.setPrev c).mcs = s.mcs := rfl
@[simp] theorem State.setPrev_imgW (s : State) (c : Code) : (s.setPrev c).imgW = s.imgW := rfl
@[simp] theorem State.setPrev_imgH (s : State) (c : Code) : (s.setPrev c).imgH = s.imgH := rfl
@[simp] theorem State.setPrev_sbCount (s : State) (c : Code) : (s.setPrev c).sbCount = s.sbCount := rfl
@[simp] theorem State.setPrev_outCount (s : State) (c : Code) : (s.setPrev c).outCount = s.outCount := rfl
@[simp] theorem State.setPrev_reader (s : State) (c : Code) : (s.setPrev c).reader = s.reader := rfl
@[simp] theorem State.setPrev_width (s : State) (c : Code) : (s.setPrev c).width = s.width := rfl
@[simp] theorem State.setPrev_next (s : State) (c : Code) : (s.setPrev c).next = s.next := rfl
@[simp] theorem State.setPrev_prev (s : State) (c : Code) : (s.setPrev c).prev = some c := rfl
@[simp] theorem State.setPrev_inMem (s : State) (c : Code) : (s.setPrev c).inMem = s.inMem := rfl
@[simp] theorem State.setPrev_dict (s : State) (c : Code) : (s.setPrev c).dict = s.dict := rfl
@[simp] theorem State.setPrev_out (s : State) (c : Code) : (s.setPrev c).out = s.out := rfl
@[simp] theorem State.setPrev_cfg (s : State) (c : Code) : (s.setPrev c).cfg = s.cfg := rfl
@[simp] theorem State.setPrev_agenda (s : State) (c : Code) : (s.setPrev c).agenda = s.agenda := rfl
@[simp] theorem State.setPrev_hostData (s : State) (c : Code) : (s.setPrev c).hostData = s.hostData := rfl
@[simp] theorem State.setPrev_freeCtr (s : State) (c : Code) : (s.setPrev c).freeCtr = s.freeCtr := rfl
@[simp] theorem State.setPrev_inEpoch (s : State) (c : Code) : (s.setPrev c).inEpoch = s.inEpoch := rfl
@[simp] theorem State.setPrev_n (s : State) (c : Code) : (s.setPrev c).n = s.n := rfl
@[simp] theorem State.setPrev_expect (s : State) (c : Code) : (s.setPrev c).expect = s.expect := rfl
@[simp] theorem State.setPrev_status (s : State) (c : Code) : (s.setPrev c).status = s.status := rfl

/-! `State.setAgenda` -/
@[simp] theorem State.setAgenda_state (s : State) (l : List Turn) : (s.setAgenda l).state = s.state := rfl
@[simp] theorem State.setAgenda_err (s : State) (l : List Turn) : (s.setAgenda l).err = s.err := rfl
@[simp] theorem State.setAgenda_mcs (s : State) (l : List Turn) : (s.setAgenda l).mcs = s.mcs := rfl
@[simp] theorem State.setAgenda_imgW (s : State) (l : List Turn) : (s.setAgenda l).imgW = s.imgW := rfl
@[simp] theorem State.setAgenda_imgH (s : State) (l : List Turn) : (s.setAgenda l).imgH = s.imgH := rfl
@[simp] theorem State.setAgenda_sbCount (s : State) (l : List Turn) : (s.setAgenda l).sbCount = s.sbCount := rfl
@[simp] theorem State.setAgenda_outCount (s : State) (l : List Turn) : (s.setAgenda l).outCount = s.outCount := rfl
@[simp] theorem State.setAgenda_reader (s : State) (l : List Turn) : (s.setAgenda l).reader = s.reader := rfl
@[simp] theorem State.setAgenda_width (s : State) (l : List Turn) : (s.setAgenda l).width = s.width := rfl
@[simp] theorem State.setAgenda_next (s : State) (l : List Turn) : (s.setAgenda l).next = s.next := rfl
@[simp] theorem State.setAgenda_prev (s : State) (l : List Turn) : (s.setAgenda l).prev = s.prev := rfl
@[simp] theorem State.setAgenda_inMem (s : State) (l : List Turn) : (s.setAgenda l).inMem = s.inMem := rfl
@[simp] theorem State.setAgenda_dict (s : State) (l : List Turn) : (s.setAgenda l).dict = s.dict := rfl
@[simp] theorem State.setAgenda_out (s : State) (l : List Turn) : (s.setAgenda l).out = s.out := rfl
@[simp] theorem State.setAgenda_cfg (s : State) (l : List Turn) : (s.setAgenda l).cfg = s.cfg := rfl
@[simp] theorem State.setAgenda_agenda (s : State) (l : List Turn) : (s.setAgenda l).agenda = l := rfl
@[simp] theorem State.setAgenda_hostData (s : State) (l : List Turn) : (s.setAgenda l).hostData = s.hostData := rfl
@[simp] theorem State.setAgenda_freeCtr (s : State) (l : List Turn) : (s.setAgenda l).freeCtr = s.freeCtr := rfl
@[simp] theorem State.setAgenda_inEpoch (s : State) (l : List Turn) : (s.setAgenda l).inEpoch = s.inEpoch := rfl
@[simp] theorem State.setAgenda_n (s : State) (l : List Turn) : (s.setAgenda l).n = s.n := rfl
@[simp] theorem State.setAgenda_expect (s : State) (l : List Turn) : (s.setAgenda l).expect = s.expect := rfl
@[simp] theorem State.setAgenda_prevValid (s : State) (l : List Turn) : (s.setAgenda l).prevValid = s.prevValid := rfl
@[simp] theorem State.setAgenda_ctx (s : State) (l : List Turn) : (s.setAgenda l).ctx = s.ctx := rfl
@[simp] theorem State.setAgenda_status (s : State) (l : List Turn) : (s.setAgenda l).status = s.status := rfl

/-! `State.answer` -/
@[simp] theorem State.answer_state (s : State) (v : Word) : (s.answer v).state = s.state := rfl
@[simp] theorem State.answer_err (s : State) (v : Word) : (s.answer v).err = s.err := rfl
@[simp] theorem State.answer_mcs (s : State) (v : Word) : (s.answer v).mcs = s.mcs := rfl
@[simp] theorem State.answer_imgW (s : State) (v : Word) : (s.answer v).imgW = s.imgW := rfl
@[simp] theorem State.answer_imgH (s : State) (v : Word) : (s.answer v).imgH = s.imgH := rfl
@[simp] theorem State.answer_sbCount (s : State) (v : Word) : (s.answer v).sbCount = s.sbCount := rfl
@[simp] theorem State.answer_outCount (s : State) (v : Word) : (s.answer v).outCount = s.outCount := rfl
@[simp] theorem State.answer_reader (s : State) (v : Word) : (s.answer v).reader = s.reader := rfl
@[simp] theorem State.answer_width (s : State) (v : Word) : (s.answer v).width = s.width := rfl
@[simp] theorem State.answer_next (s : State) (v : Word) : (s.answer v).next = s.next := rfl
@[simp] theorem State.answer_prev (s : State) (v : Word) : (s.answer v).prev = s.prev := rfl
@[simp] theorem State.answer_inMem (s : State) (v : Word) : (s.answer v).inMem = s.inMem := rfl
@[simp] theorem State.answer_dict (s : State) (v : Word) : (s.answer v).dict = s.dict := rfl
@[simp] theorem State.answer_out (s : State) (v : Word) : (s.answer v).out = s.out := rfl
@[simp] theorem State.answer_cfg (s : State) (v : Word) : (s.answer v).cfg = s.cfg := rfl
@[simp] theorem State.answer_agenda (s : State) (v : Word) : (s.answer v).agenda = s.agenda := rfl
@[simp] theorem State.answer_hostData (s : State) (v : Word) : (s.answer v).hostData = v := rfl
@[simp] theorem State.answer_freeCtr (s : State) (v : Word) : (s.answer v).freeCtr = s.freeCtr := rfl
@[simp] theorem State.answer_inEpoch (s : State) (v : Word) : (s.answer v).inEpoch = s.inEpoch := rfl
@[simp] theorem State.answer_n (s : State) (v : Word) : (s.answer v).n = s.n := rfl
@[simp] theorem State.answer_expect (s : State) (v : Word) : (s.answer v).expect = s.expect := rfl
@[simp] theorem State.answer_prevValid (s : State) (v : Word) : (s.answer v).prevValid = s.prevValid := rfl
@[simp] theorem State.answer_ctx (s : State) (v : Word) : (s.answer v).ctx = s.ctx := rfl
@[simp] theorem State.answer_status (s : State) (v : Word) : (s.answer v).status = s.status := rfl

/-! `State.clearDict` -/
@[simp] theorem State.clearDict_state (s : State) : s.clearDict.state = s.state := rfl
@[simp] theorem State.clearDict_err (s : State) : s.clearDict.err = s.err := rfl
@[simp] theorem State.clearDict_mcs (s : State) : s.clearDict.mcs = s.mcs := rfl
@[simp] theorem State.clearDict_imgW (s : State) : s.clearDict.imgW = s.imgW := rfl
@[simp] theorem State.clearDict_imgH (s : State) : s.clearDict.imgH = s.imgH := rfl
@[simp] theorem State.clearDict_sbCount (s : State) : s.clearDict.sbCount = s.sbCount := rfl
@[simp] theorem State.clearDict_outCount (s : State) : s.clearDict.outCount = s.outCount := rfl
@[simp] theorem State.clearDict_reader (s : State) : s.clearDict.reader = s.reader := rfl
@[simp] theorem State.clearDict_width (s : State) : s.clearDict.width = BitVec.ofNat 4 (s.n + 1) := rfl
@[simp] theorem State.clearDict_next (s : State) : s.clearDict.next = BitVec.ofNat 13 (firstFree s.n) := rfl
@[simp] theorem State.clearDict_prev (s : State) : s.clearDict.prev = none := rfl
@[simp] theorem State.clearDict_inMem (s : State) : s.clearDict.inMem = s.inMem := rfl
@[simp] theorem State.clearDict_dict (s : State) : s.clearDict.dict = s.dict := rfl
@[simp] theorem State.clearDict_out (s : State) : s.clearDict.out = s.out := rfl
@[simp] theorem State.clearDict_cfg (s : State) : s.clearDict.cfg = s.cfg := rfl
@[simp] theorem State.clearDict_agenda (s : State) : s.clearDict.agenda = s.agenda := rfl
@[simp] theorem State.clearDict_hostData (s : State) : s.clearDict.hostData = s.hostData := rfl
@[simp] theorem State.clearDict_freeCtr (s : State) : s.clearDict.freeCtr = s.freeCtr := rfl
@[simp] theorem State.clearDict_inEpoch (s : State) : s.clearDict.inEpoch = s.inEpoch := rfl
@[simp] theorem State.clearDict_n (s : State) : s.clearDict.n = s.n := rfl
@[simp] theorem State.clearDict_expect (s : State) : s.clearDict.expect = s.expect := rfl
@[simp] theorem State.clearDict_status (s : State) : s.clearDict.status = s.status := rfl

/-! `State.emit` -/
@[simp] theorem State.emit_state (s : State) (S : List LzwSym) : (s.emit S).state = s.state := rfl
@[simp] theorem State.emit_err (s : State) (S : List LzwSym) : (s.emit S).err = s.err := rfl
@[simp] theorem State.emit_mcs (s : State) (S : List LzwSym) : (s.emit S).mcs = s.mcs := rfl
@[simp] theorem State.emit_imgW (s : State) (S : List LzwSym) : (s.emit S).imgW = s.imgW := rfl
@[simp] theorem State.emit_imgH (s : State) (S : List LzwSym) : (s.emit S).imgH = s.imgH := rfl
@[simp] theorem State.emit_sbCount (s : State) (S : List LzwSym) : (s.emit S).sbCount = s.sbCount := rfl
@[simp] theorem State.emit_outCount (s : State) (S : List LzwSym) : (s.emit S).outCount = s.outCount + BitVec.ofNat 32 S.length := rfl
@[simp] theorem State.emit_reader (s : State) (S : List LzwSym) : (s.emit S).reader = s.reader := rfl
@[simp] theorem State.emit_width (s : State) (S : List LzwSym) : (s.emit S).width = s.width := rfl
@[simp] theorem State.emit_next (s : State) (S : List LzwSym) : (s.emit S).next = s.next := rfl
@[simp] theorem State.emit_prev (s : State) (S : List LzwSym) : (s.emit S).prev = s.prev := rfl
@[simp] theorem State.emit_inMem (s : State) (S : List LzwSym) : (s.emit S).inMem = s.inMem := rfl
@[simp] theorem State.emit_dict (s : State) (S : List LzwSym) : (s.emit S).dict = s.dict := rfl
@[simp] theorem State.emit_out (s : State) (S : List LzwSym) : (s.emit S).out = s.out.writeList s.outCount.toNat S := rfl
@[simp] theorem State.emit_cfg (s : State) (S : List LzwSym) : (s.emit S).cfg = s.cfg := rfl
@[simp] theorem State.emit_agenda (s : State) (S : List LzwSym) : (s.emit S).agenda = s.agenda := rfl
@[simp] theorem State.emit_hostData (s : State) (S : List LzwSym) : (s.emit S).hostData = s.hostData := rfl
@[simp] theorem State.emit_freeCtr (s : State) (S : List LzwSym) : (s.emit S).freeCtr = s.freeCtr := rfl
@[simp] theorem State.emit_inEpoch (s : State) (S : List LzwSym) : (s.emit S).inEpoch = s.inEpoch := rfl
@[simp] theorem State.emit_n (s : State) (S : List LzwSym) : (s.emit S).n = s.n := rfl
@[simp] theorem State.emit_expect (s : State) (S : List LzwSym) : (s.emit S).expect = s.expect := rfl
@[simp] theorem State.emit_prevValid (s : State) (S : List LzwSym) : (s.emit S).prevValid = s.prevValid := rfl
@[simp] theorem State.emit_ctx (s : State) (S : List LzwSym) : (s.emit S).ctx = s.ctx := rfl
@[simp] theorem State.emit_status (s : State) (S : List LzwSym) : (s.emit S).status = s.status := rfl

/-! `State.bindSlot` -/
@[simp] theorem State.bindSlot_state (s : State) (d : DictEntry) : (s.bindSlot d).state = s.state := rfl
@[simp] theorem State.bindSlot_err (s : State) (d : DictEntry) : (s.bindSlot d).err = s.err := rfl
@[simp] theorem State.bindSlot_mcs (s : State) (d : DictEntry) : (s.bindSlot d).mcs = s.mcs := rfl
@[simp] theorem State.bindSlot_imgW (s : State) (d : DictEntry) : (s.bindSlot d).imgW = s.imgW := rfl
@[simp] theorem State.bindSlot_imgH (s : State) (d : DictEntry) : (s.bindSlot d).imgH = s.imgH := rfl
@[simp] theorem State.bindSlot_sbCount (s : State) (d : DictEntry) : (s.bindSlot d).sbCount = s.sbCount := rfl
@[simp] theorem State.bindSlot_outCount (s : State) (d : DictEntry) : (s.bindSlot d).outCount = s.outCount := rfl
@[simp] theorem State.bindSlot_reader (s : State) (d : DictEntry) : (s.bindSlot d).reader = s.reader := rfl
@[simp] theorem State.bindSlot_width (s : State) (d : DictEntry) : (s.bindSlot d).width = s.width := rfl
@[simp] theorem State.bindSlot_next (s : State) (d : DictEntry) : (s.bindSlot d).next = s.next + 1 := rfl
@[simp] theorem State.bindSlot_prev (s : State) (d : DictEntry) : (s.bindSlot d).prev = s.prev := rfl
@[simp] theorem State.bindSlot_inMem (s : State) (d : DictEntry) : (s.bindSlot d).inMem = s.inMem := rfl
@[simp] theorem State.bindSlot_dict (s : State) (d : DictEntry) : (s.bindSlot d).dict = s.dict.write s.next.toNat d := rfl
@[simp] theorem State.bindSlot_out (s : State) (d : DictEntry) : (s.bindSlot d).out = s.out := rfl
@[simp] theorem State.bindSlot_cfg (s : State) (d : DictEntry) : (s.bindSlot d).cfg = s.cfg := rfl
@[simp] theorem State.bindSlot_agenda (s : State) (d : DictEntry) : (s.bindSlot d).agenda = s.agenda := rfl
@[simp] theorem State.bindSlot_hostData (s : State) (d : DictEntry) : (s.bindSlot d).hostData = s.hostData := rfl
@[simp] theorem State.bindSlot_freeCtr (s : State) (d : DictEntry) : (s.bindSlot d).freeCtr = s.freeCtr := rfl
@[simp] theorem State.bindSlot_inEpoch (s : State) (d : DictEntry) : (s.bindSlot d).inEpoch = s.inEpoch := rfl
@[simp] theorem State.bindSlot_n (s : State) (d : DictEntry) : (s.bindSlot d).n = s.n := rfl
@[simp] theorem State.bindSlot_expect (s : State) (d : DictEntry) : (s.bindSlot d).expect = s.expect := rfl
@[simp] theorem State.bindSlot_prevValid (s : State) (d : DictEntry) : (s.bindSlot d).prevValid = s.prevValid := rfl
@[simp] theorem State.bindSlot_status (s : State) (d : DictEntry) : (s.bindSlot d).status = s.status := rfl

/-! `State.clearResult` -/
@[simp] theorem State.clearResult_state (s : State) : s.clearResult.state = s.state := rfl
@[simp] theorem State.clearResult_err (s : State) : s.clearResult.err = .none := rfl
@[simp] theorem State.clearResult_mcs (s : State) : s.clearResult.mcs = s.mcs := rfl
@[simp] theorem State.clearResult_imgW (s : State) : s.clearResult.imgW = s.imgW := rfl
@[simp] theorem State.clearResult_imgH (s : State) : s.clearResult.imgH = s.imgH := rfl
@[simp] theorem State.clearResult_sbCount (s : State) : s.clearResult.sbCount = s.sbCount := rfl
@[simp] theorem State.clearResult_outCount (s : State) : s.clearResult.outCount = 0 := rfl
@[simp] theorem State.clearResult_reader (s : State) : s.clearResult.reader = s.reader := rfl
@[simp] theorem State.clearResult_width (s : State) : s.clearResult.width = s.width := rfl
@[simp] theorem State.clearResult_next (s : State) : s.clearResult.next = s.next := rfl
@[simp] theorem State.clearResult_prev (s : State) : s.clearResult.prev = s.prev := rfl
@[simp] theorem State.clearResult_inMem (s : State) : s.clearResult.inMem = s.inMem := rfl
@[simp] theorem State.clearResult_dict (s : State) : s.clearResult.dict = s.dict := rfl
@[simp] theorem State.clearResult_out (s : State) : s.clearResult.out = s.out := rfl
@[simp] theorem State.clearResult_cfg (s : State) : s.clearResult.cfg = s.cfg := rfl
@[simp] theorem State.clearResult_agenda (s : State) : s.clearResult.agenda = s.agenda := rfl
@[simp] theorem State.clearResult_hostData (s : State) : s.clearResult.hostData = s.hostData := rfl
@[simp] theorem State.clearResult_freeCtr (s : State) : s.clearResult.freeCtr = s.freeCtr := rfl
@[simp] theorem State.clearResult_inEpoch (s : State) : s.clearResult.inEpoch = s.inEpoch := rfl
@[simp] theorem State.clearResult_n (s : State) : s.clearResult.n = s.n := rfl
@[simp] theorem State.clearResult_expect (s : State) : s.clearResult.expect = s.expect := rfl
@[simp] theorem State.clearResult_prevValid (s : State) : s.clearResult.prevValid = s.prevValid := rfl
@[simp] theorem State.clearResult_ctx (s : State) : s.clearResult.ctx = s.ctx := rfl

/-! `State.beginRun` -/
@[simp] theorem State.beginRun_state (s : State) : s.beginRun.state = .run := rfl
@[simp] theorem State.beginRun_err (s : State) : s.beginRun.err = s.err := rfl
@[simp] theorem State.beginRun_mcs (s : State) : s.beginRun.mcs = s.mcs := rfl
@[simp] theorem State.beginRun_imgW (s : State) : s.beginRun.imgW = s.imgW := rfl
@[simp] theorem State.beginRun_imgH (s : State) : s.beginRun.imgH = s.imgH := rfl
@[simp] theorem State.beginRun_sbCount (s : State) : s.beginRun.sbCount = s.sbCount := rfl
@[simp] theorem State.beginRun_outCount (s : State) : s.beginRun.outCount = s.outCount := rfl
@[simp] theorem State.beginRun_reader (s : State) : s.beginRun.reader = BitReader.empty := rfl
@[simp] theorem State.beginRun_width (s : State) : s.beginRun.width = BitVec.ofNat 4 (s.n + 1) := rfl
@[simp] theorem State.beginRun_next (s : State) : s.beginRun.next = BitVec.ofNat 13 (firstFree s.n) := rfl
@[simp] theorem State.beginRun_prev (s : State) : s.beginRun.prev = none := rfl
@[simp] theorem State.beginRun_inMem (s : State) : s.beginRun.inMem = s.inMem := rfl
@[simp] theorem State.beginRun_dict (s : State) : s.beginRun.dict = s.dict := rfl
@[simp] theorem State.beginRun_out (s : State) : s.beginRun.out = s.out := rfl
@[simp] theorem State.beginRun_cfg (s : State) : s.beginRun.cfg = s.cfg := rfl
@[simp] theorem State.beginRun_agenda (s : State) : s.beginRun.agenda = s.agenda := rfl
@[simp] theorem State.beginRun_hostData (s : State) : s.beginRun.hostData = s.hostData := rfl
@[simp] theorem State.beginRun_freeCtr (s : State) : s.beginRun.freeCtr = s.freeCtr := rfl
@[simp] theorem State.beginRun_inEpoch (s : State) : s.beginRun.inEpoch = s.inEpoch := rfl
@[simp] theorem State.beginRun_n (s : State) : s.beginRun.n = s.n := rfl
@[simp] theorem State.beginRun_expect (s : State) : s.beginRun.expect = s.expect := rfl

/-! `State.storeIn` -/
@[simp] theorem State.storeIn_state (s : State) (a : Nat) (b : Byte) : (s.storeIn a b).state = s.state := rfl
@[simp] theorem State.storeIn_err (s : State) (a : Nat) (b : Byte) : (s.storeIn a b).err = s.err := rfl
@[simp] theorem State.storeIn_mcs (s : State) (a : Nat) (b : Byte) : (s.storeIn a b).mcs = s.mcs := rfl
@[simp] theorem State.storeIn_imgW (s : State) (a : Nat) (b : Byte) : (s.storeIn a b).imgW = s.imgW := rfl
@[simp] theorem State.storeIn_imgH (s : State) (a : Nat) (b : Byte) : (s.storeIn a b).imgH = s.imgH := rfl
@[simp] theorem State.storeIn_sbCount (s : State) (a : Nat) (b : Byte) : (s.storeIn a b).sbCount = s.sbCount := rfl
@[simp] theorem State.storeIn_outCount (s : State) (a : Nat) (b : Byte) : (s.storeIn a b).outCount = s.outCount := rfl
@[simp] theorem State.storeIn_reader (s : State) (a : Nat) (b : Byte) : (s.storeIn a b).reader = s.reader := rfl
@[simp] theorem State.storeIn_width (s : State) (a : Nat) (b : Byte) : (s.storeIn a b).width = s.width := rfl
@[simp] theorem State.storeIn_next (s : State) (a : Nat) (b : Byte) : (s.storeIn a b).next = s.next := rfl
@[simp] theorem State.storeIn_prev (s : State) (a : Nat) (b : Byte) : (s.storeIn a b).prev = s.prev := rfl
@[simp] theorem State.storeIn_inMem (s : State) (a : Nat) (b : Byte) : (s.storeIn a b).inMem = s.inMem.write a b := rfl
@[simp] theorem State.storeIn_dict (s : State) (a : Nat) (b : Byte) : (s.storeIn a b).dict = s.dict := rfl
@[simp] theorem State.storeIn_out (s : State) (a : Nat) (b : Byte) : (s.storeIn a b).out = s.out := rfl
@[simp] theorem State.storeIn_cfg (s : State) (a : Nat) (b : Byte) : (s.storeIn a b).cfg = s.cfg := rfl
@[simp] theorem State.storeIn_agenda (s : State) (a : Nat) (b : Byte) : (s.storeIn a b).agenda = s.agenda := rfl
@[simp] theorem State.storeIn_hostData (s : State) (a : Nat) (b : Byte) : (s.storeIn a b).hostData = s.hostData := rfl
@[simp] theorem State.storeIn_freeCtr (s : State) (a : Nat) (b : Byte) : (s.storeIn a b).freeCtr = s.freeCtr := rfl
@[simp] theorem State.storeIn_inEpoch (s : State) (a : Nat) (b : Byte) : (s.storeIn a b).inEpoch = s.inEpoch := rfl
@[simp] theorem State.storeIn_n (s : State) (a : Nat) (b : Byte) : (s.storeIn a b).n = s.n := rfl
@[simp] theorem State.storeIn_expect (s : State) (a : Nat) (b : Byte) : (s.storeIn a b).expect = s.expect := rfl
@[simp] theorem State.storeIn_prevValid (s : State) (a : Nat) (b : Byte) : (s.storeIn a b).prevValid = s.prevValid := rfl
@[simp] theorem State.storeIn_ctx (s : State) (a : Nat) (b : Byte) : (s.storeIn a b).ctx = s.ctx := rfl
@[simp] theorem State.storeIn_status (s : State) (a : Nat) (b : Byte) : (s.storeIn a b).status = s.status := rfl

/-! `State.growWidth` -/
@[simp] theorem State.growWidth_state (s : State) : s.growWidth.state = s.state := by
  unfold State.growWidth; split <;> rfl
@[simp] theorem State.growWidth_err (s : State) : s.growWidth.err = s.err := by
  unfold State.growWidth; split <;> rfl
@[simp] theorem State.growWidth_mcs (s : State) : s.growWidth.mcs = s.mcs := by
  unfold State.growWidth; split <;> rfl
@[simp] theorem State.growWidth_imgW (s : State) : s.growWidth.imgW = s.imgW := by
  unfold State.growWidth; split <;> rfl
@[simp] theorem State.growWidth_imgH (s : State) : s.growWidth.imgH = s.imgH := by
  unfold State.growWidth; split <;> rfl
@[simp] theorem State.growWidth_sbCount (s : State) : s.growWidth.sbCount = s.sbCount := by
  unfold State.growWidth; split <;> rfl
@[simp] theorem State.growWidth_outCount (s : State) : s.growWidth.outCount = s.outCount := by
  unfold State.growWidth; split <;> rfl
@[simp] theorem State.growWidth_reader (s : State) : s.growWidth.reader = s.reader := by
  unfold State.growWidth; split <;> rfl
theorem State.growWidth_width (s : State) :
    s.growWidth.width = if growTest s.next s.width then s.width + 1 else s.width := by
  unfold State.growWidth; split <;> rfl
@[simp] theorem State.growWidth_next (s : State) : s.growWidth.next = s.next := by
  unfold State.growWidth; split <;> rfl
@[simp] theorem State.growWidth_prev (s : State) : s.growWidth.prev = s.prev := by
  unfold State.growWidth; split <;> rfl
@[simp] theorem State.growWidth_inMem (s : State) : s.growWidth.inMem = s.inMem := by
  unfold State.growWidth; split <;> rfl
@[simp] theorem State.growWidth_dict (s : State) : s.growWidth.dict = s.dict := by
  unfold State.growWidth; split <;> rfl
@[simp] theorem State.growWidth_out (s : State) : s.growWidth.out = s.out := by
  unfold State.growWidth; split <;> rfl
@[simp] theorem State.growWidth_cfg (s : State) : s.growWidth.cfg = s.cfg := by
  unfold State.growWidth; split <;> rfl
@[simp] theorem State.growWidth_agenda (s : State) : s.growWidth.agenda = s.agenda := by
  unfold State.growWidth; split <;> rfl
@[simp] theorem State.growWidth_hostData (s : State) : s.growWidth.hostData = s.hostData := by
  unfold State.growWidth; split <;> rfl
@[simp] theorem State.growWidth_freeCtr (s : State) : s.growWidth.freeCtr = s.freeCtr := by
  unfold State.growWidth; split <;> rfl
@[simp] theorem State.growWidth_inEpoch (s : State) : s.growWidth.inEpoch = s.inEpoch := by
  unfold State.growWidth; split <;> rfl
@[simp] theorem State.growWidth_n (s : State) : s.growWidth.n = s.n := by
  unfold State.growWidth; split <;> rfl
@[simp] theorem State.growWidth_expect (s : State) : s.growWidth.expect = s.expect := by
  unfold State.growWidth; split <;> rfl
@[simp] theorem State.growWidth_prevValid (s : State) : s.growWidth.prevValid = s.prevValid := by
  unfold State.growWidth; split <;> rfl
@[simp] theorem State.growWidth_ctx (s : State) : s.growWidth.ctx = s.ctx := by
  unfold State.growWidth; split <;> rfl
@[simp] theorem State.growWidth_status (s : State) : s.growWidth.status = s.status := by
  unfold State.growWidth; split <;> rfl

/-! `State.nextCode`: the fetch writes the bit reader alone (40 R120). -/
@[simp] theorem State.nextCode_state (s : State) (w : Nat) : (s.nextCode w).2.state = s.state := by
  unfold State.nextCode; dsimp only; split <;> rfl
@[simp] theorem State.nextCode_err (s : State) (w : Nat) : (s.nextCode w).2.err = s.err := by
  unfold State.nextCode; dsimp only; split <;> rfl
@[simp] theorem State.nextCode_mcs (s : State) (w : Nat) : (s.nextCode w).2.mcs = s.mcs := by
  unfold State.nextCode; dsimp only; split <;> rfl
@[simp] theorem State.nextCode_imgW (s : State) (w : Nat) : (s.nextCode w).2.imgW = s.imgW := by
  unfold State.nextCode; dsimp only; split <;> rfl
@[simp] theorem State.nextCode_imgH (s : State) (w : Nat) : (s.nextCode w).2.imgH = s.imgH := by
  unfold State.nextCode; dsimp only; split <;> rfl
@[simp] theorem State.nextCode_sbCount (s : State) (w : Nat) : (s.nextCode w).2.sbCount = s.sbCount := by
  unfold State.nextCode; dsimp only; split <;> rfl
@[simp] theorem State.nextCode_outCount (s : State) (w : Nat) : (s.nextCode w).2.outCount = s.outCount := by
  unfold State.nextCode; dsimp only; split <;> rfl
@[simp] theorem State.nextCode_width (s : State) (w : Nat) : (s.nextCode w).2.width = s.width := by
  unfold State.nextCode; dsimp only; split <;> rfl
@[simp] theorem State.nextCode_next (s : State) (w : Nat) : (s.nextCode w).2.next = s.next := by
  unfold State.nextCode; dsimp only; split <;> rfl
@[simp] theorem State.nextCode_prev (s : State) (w : Nat) : (s.nextCode w).2.prev = s.prev := by
  unfold State.nextCode; dsimp only; split <;> rfl
@[simp] theorem State.nextCode_inMem (s : State) (w : Nat) : (s.nextCode w).2.inMem = s.inMem := by
  unfold State.nextCode; dsimp only; split <;> rfl
@[simp] theorem State.nextCode_dict (s : State) (w : Nat) : (s.nextCode w).2.dict = s.dict := by
  unfold State.nextCode; dsimp only; split <;> rfl
@[simp] theorem State.nextCode_out (s : State) (w : Nat) : (s.nextCode w).2.out = s.out := by
  unfold State.nextCode; dsimp only; split <;> rfl
@[simp] theorem State.nextCode_cfg (s : State) (w : Nat) : (s.nextCode w).2.cfg = s.cfg := by
  unfold State.nextCode; dsimp only; split <;> rfl
@[simp] theorem State.nextCode_agenda (s : State) (w : Nat) : (s.nextCode w).2.agenda = s.agenda := by
  unfold State.nextCode; dsimp only; split <;> rfl
@[simp] theorem State.nextCode_hostData (s : State) (w : Nat) : (s.nextCode w).2.hostData = s.hostData := by
  unfold State.nextCode; dsimp only; split <;> rfl
@[simp] theorem State.nextCode_freeCtr (s : State) (w : Nat) : (s.nextCode w).2.freeCtr = s.freeCtr := by
  unfold State.nextCode; dsimp only; split <;> rfl
@[simp] theorem State.nextCode_inEpoch (s : State) (w : Nat) : (s.nextCode w).2.inEpoch = s.inEpoch := by
  unfold State.nextCode; dsimp only; split <;> rfl
@[simp] theorem State.nextCode_n (s : State) (w : Nat) : (s.nextCode w).2.n = s.n := by
  unfold State.nextCode; dsimp only; split <;> rfl
@[simp] theorem State.nextCode_expect (s : State) (w : Nat) : (s.nextCode w).2.expect = s.expect := by
  unfold State.nextCode; dsimp only; split <;> rfl
@[simp] theorem State.nextCode_prevValid (s : State) (w : Nat) : (s.nextCode w).2.prevValid = s.prevValid := by
  unfold State.nextCode; dsimp only; split <;> rfl
@[simp] theorem State.nextCode_ctx (s : State) (w : Nat) : (s.nextCode w).2.ctx = s.ctx := by
  unfold State.nextCode; dsimp only; split <;> rfl
@[simp] theorem State.nextCode_status (s : State) (w : Nat) : (s.nextCode w).2.status = s.status := by
  unfold State.nextCode; dsimp only; split <;> rfl

end Sys2Proof.Machine
end

