-- ==== Sys2Proof/Certificates/Slice0/Obligations.lean ====
section
/-! DEFINITION. The statements for the provers, rule by rule of the spec. -/
open Sys2Proof Sys2Proof.Machine

/-! ## Reset and the step -/

/-- 10 R50, 70 R230: what the spec gives of the state after reset. -/
def Obligations.ResetStateHoldsTheResetTable : Prop :=
  State.reset.state = .idle ∧ State.reset.err = .none ∧ State.reset.mcs = 0 ∧ State.reset.imgW = 0 ∧ State.reset.imgH = 0 ∧
    State.reset.sbCount = 0 ∧ State.reset.expect = 0 ∧ State.reset.outCount = 0 ∧ State.reset.reader = ⟨0, 0, 0, 0⟩ ∧
    State.reset.bitpos = 0 ∧ State.reset.prevValid = false ∧ State.reset.status = 0

/-- 44 R180: RST from any state, with what it leaves outside the block's own table unchanged. -/
def Obligations.RstLeavesTheResetTable : Prop :=
  ∀ s, ∃ t, exec .rst s = .next t ∧ t.state = .idle ∧ t.err = .none ∧ t.mcs = 0 ∧ t.imgW = 0 ∧ t.imgH = 0 ∧ t.sbCount = 0 ∧
    t.outCount = 0 ∧ t.reader = ⟨0, 0, 0, 0⟩ ∧ t.prevValid = false ∧
    t.status = 0 ∧ t.expect = 0 ∧ t.cfg = s.cfg ∧ t.agenda = s.agenda ∧ t.hostData = s.hostData

/-- 40 R131: the engine step fetches at `WIDTH` and runs the instruction that the fetched code selects in the context before
the step, in the state after the fetch; an exhausted fetch raises `E_TRUNC`. -/
def Obligations.StepRunsTheFetchedCode : Prop :=
  ∀ s s' : State, s.state = .run → (s.agenda = [] ∧ s' = s ∨ ∃ rest, s.agenda = .engine :: rest ∧ s' = s.setAgenda rest) →
    (∀ u, s'.nextCode s.width.toNat = (none, u) → step s = .next (u.raise .trunc)) ∧
    (∀ c u, s'.nextCode s.width.toNat = (some c, u) → step s = exec (classify s.ctx c) u)

/-- 30 R97, 10 R26: the host's two commands reach exec; a `CTRL` write with bit 0 clear does nothing. -/
def Obligations.StepRunsTheHostCommands : Prop :=
  ∀ (s : State) (rest : List Turn),
    (s.agenda = .host .reset :: rest → step s = exec .rst (s.setAgenda rest)) ∧
    (∀ v : Word, s.agenda = .host (.regWrite 0 v) :: rest → v.getLsbD 0 = true → step s = exec .start (s.setAgenda rest)) ∧
    (∀ v : Word, s.agenda = .host (.regWrite 0 v) :: rest → v.getLsbD 0 = false → step s = .next (s.setAgenda rest))

/-- 40 R130: an engine turn has a step exactly in `RUN`: there it is never held up; elsewhere it does nothing and changes nothing
(only the turn is used up, log 7). -/
def Obligations.EngineStepsExactlyInRun : Prop :=
  (∀ s : State, MachineInv s → s.state = .run → s.engineTurn → ∃ t, step s = .next t ∧ (t.state = .run → t.bitpos ≠ s.bitpos)) ∧
  (∀ s : State, s.state ≠ .run →
    (s.agenda = [] → step s = .next s) ∧ (∀ rest, s.agenda = .engine :: rest → step s = .next (s.setAgenda rest)))

/-! ## Decoding -/

/-- 30 R93: the opcode map, each row exactly on its condition, row 6 as the rule spells it out. -/
def Obligations.ClassificationIsTheOpcodeMap : Prop :=
  ∀ (x : CodeCtx) (c : Code), x.Legal →
    (classify x c = .clr ↔ c.toNat = 2 ^ x.n) ∧
    (classify x c = .eoi ↔ c.toNat = 2 ^ x.n + 1) ∧
    (classify x c = .lit c ↔ c.toNat < 2 ^ x.n) ∧
    (classify x c = .ref c ↔ x.prevValid = true ∧ 2 ^ x.n + 2 ≤ c.toNat ∧ c.toNat < x.next.toNat) ∧
    (classify x c = .kwk ↔ x.prevValid = true ∧ c.toNat = x.next.toNat ∧ x.next.toNat < 4096) ∧
    (classify x c = .unassigned c ↔
      x.next.toNat < c.toNat ∨ (c.toNat = x.next.toNat ∧ x.prevValid = false) ∨
        (2 ^ x.n + 2 ≤ c.toNat ∧ x.prevValid = false))

/-- 30 R91: the fetched code, as the bits of the stream at `BITPOS` and as a field of three bytes; exhausted where a bit lies
beyond the input. -/
def Obligations.FetchedCodeIsAFieldOfThreeBytes : Prop :=
  ∀ s : State, ReaderInv s → legalWidth s.width.toNat →
    let p := s.bitpos
    let w := s.width.toNat
    let b := fun q => (s.inBytes.getD q 0).toNat
    (p + w ≤ 8 * s.inBytes.length →
      ∃ c : Code, (s.nextCode w).1 = some c ∧ (∀ i < w, c.getLsbD i = streamBit s.inBytes (p + i)) ∧
        c.toNat = (b (p / 8) + 256 * b (p / 8 + 1) + 65536 * b (p / 8 + 2)) / 2 ^ (p % 8) % 2 ^ w) ∧
    (8 * s.inBytes.length < p + w → (s.nextCode w).1 = none)

/-- 30 R90 to R93: where the stream holds, at any bit position, the bits of a well-formed instruction's code, the decoder reads
that instruction, with every operand, and stops right after it. -/
def Obligations.EncodedInstructionDecodesAnywhereInAStream : Prop :=
  ∀ (x : CodeCtx) (i : Instr) (c : Code) (w p : Nat) (bytes : List Byte), x.Legal → i.wf x = true → encode x i = .code c →
    legalWidth w → p + w ≤ 8 * bytes.length → c.toNat < 2 ^ w →
    (∀ j < w, streamBit bytes (p + j) = c.getLsbD j) → decodeStream x w bytes p = .ok (i, p + w)

/-- 30 R99, R92: whatever codes the packer can write, the reader reads back, each at the width it was written at; and the packer
tracks `WIDTH`, `NEXT` and `PREV_VALID` exactly as the engine does: from START on, over every code fetched that raises no error,
the halting EOI among them. -/
def Obligations.PackedStreamReadsBack : Prop :=
  (∀ (n : Nat) (codes : List Code) (bytes : List Byte), nMin ≤ n → n ≤ nMax → pack n codes = some bytes →
    unpack n bytes codes.length = some codes) ∧
  (∀ s t : State, s.state ≠ .run → exec .start s = .next t → t.state = .run → t.track = Track.start s.n) ∧
  (∀ (s t : State) (c : Code), RunInv s → exec (classify s.ctx c) s = .next t → t.state ≠ .error → t.track = s.track.after c) ∧
  (∀ s t : State, MachineInv s → s.state = .run → s.engineTurn → step s = .next t → t.state ≠ .error →
    ∃ c, codeAt s.inBytes s.bitpos s.width.toNat = some c ∧ t.track = s.track.after c)

/-- 30 R96, R101: words written out from the spec's encodings. -/
def Obligations.WrittenOutWordsDecode : Prop :=
  decodeStream ⟨2, 6, false⟩ 3 [0x44, 0x01] 0 = .ok (.clr, 3) ∧
  decodeStream ⟨2, 6, false⟩ 3 [0x44, 0x01] 3 = .ok (.lit 0, 6) ∧
  decodeStream ⟨2, 6, true⟩ 3 [0x44, 0x01] 6 = .ok (.eoi, 9) ∧
  decodeStream ⟨2, 6, true⟩ 3 [0x8C, 0x2D] 6 = .ok (.kwk, 9) ∧
  decodeStream ⟨2, 7, true⟩ 3 [0x8C, 0x2D] 9 = .ok (.ref 6, 12) ∧
  decodeStream ⟨2, 6, true⟩ 3 [0xC4, 0x01] 6 = .ok (.unassigned 7, 9) ∧
  decodeStream ⟨11, 2050, false⟩ 12 [0x00, 0xF8, 0x7F, 0x02, 0x18, 0x80] 12 = .ok (.lit 2047, 24) ∧
  decodeTableWord 32 1 = some .start ∧ decodeTableWord 32 0xFFFFFFFE = none

/-! ## The bit reader -/

/-- 40 R124: from the state START leaves, and after every call, `next_code` is the pure function of the flat input and the bit
position, which an exhausted call leaves alone. -/
def Obligations.NextCodeIsTheClosedForm : Prop :=
  (∀ s t : State, s.state ≠ .run → exec .start s = .next t → t.state = .run → ReaderInv t ∧ t.bitpos = 0) ∧
  (∀ (s : State) (w : Nat), ReaderInv s → 2 ≤ w → w ≤ 12 →
    let r := s.nextCode w
    ReaderInv r.2 ∧ r.1 = codeAt s.inBytes s.bitpos w ∧ r.2.inBytes = s.inBytes ∧
      r.2.bitpos = (if s.bitpos + w ≤ 8 * s.inBytes.length then s.bitpos + w else s.bitpos))

/-- 40 R123: an exhausted `next_code` leaves in `ACC` all the bits the stream still has (the reader's invariant says which) and the
cursor at the end. Every later one asking for more than them is exhausted and changes nothing; one asking for at most them gives
the bits at the unchanged `BITPOS`. Exhausted exactly when the stream has fewer than `w` bits left. -/
def Obligations.ExhaustionIsFinal : Prop :=
  ∀ (s : State) (w : Nat), ReaderInv s → 2 ≤ w → w ≤ 12 →
    ((s.nextCode w).1 = none ↔ 8 * s.inBytes.length < s.bitpos + w) ∧
    ((s.nextCode w).1 = none →
      let t := (s.nextCode w).2
      t.bitpos = s.bitpos ∧ t.reader.nbits.toNat < w ∧ t.reader.sbIdx = t.sbCount ∧
        ReaderInv t ∧ t.inBytes = s.inBytes ∧ s.bitpos + t.reader.nbits.toNat = 8 * s.inBytes.length ∧
        (∀ i < t.reader.nbits.toNat, t.reader.acc.getLsbD i = streamBit s.inBytes (s.bitpos + i)) ∧
        ∀ w', 2 ≤ w' → w' ≤ 12 →
          (t.reader.nbits.toNat < w' → t.nextCode w' = (none, t)) ∧
          (w' ≤ t.reader.nbits.toNat →
            (t.nextCode w').1 = codeAt s.inBytes s.bitpos w' ∧ (t.nextCode w').1.isSome))

/-- 40 R121, 20 R68: a fetch reads at most two bytes, none when enough bits are pending, and none beyond those the code needs. -/
def Obligations.FetchReadsOnlyTheBytesItNeeds : Prop :=
  ∀ (s : State) (w : Nat), ReaderInv s → 2 ≤ w → w ≤ 12 →
    let t := (s.nextCode w).2
    s.consumed ≤ t.consumed ∧ t.consumed ≤ s.consumed + 2 ∧ (w ≤ s.reader.nbits.toNat → t.consumed = s.consumed) ∧
      ((s.nextCode w).1.isSome → t.consumed ≠ s.consumed → t.reader.nbits.toNat < 8)

/-! ## The reserved codes -/

/-- 41 R141: CLR. -/
def Obligations.ClrRestoresTheStartDictionary : Prop :=
  ∀ s : State, nMin ≤ s.n → s.n ≤ nMax →
    ∃ t, exec .clr s = .next t ∧ t.next.toNat = 2 ^ s.n + 2 ∧ t.width.toNat = s.n + 1 ∧ t.prevValid = false ∧
      t.dict = s.dict ∧ t.reader = s.reader ∧ t.state = s.state ∧ t.err = s.err ∧
      SameOutput s t ∧ SameInput s t ∧ SameSurroundings s t

/-- 41 R141 (a), (b): CLR after CLR, and CLR as the first code after START, change nothing. -/
def Obligations.ClrOnAFreshDictionaryChangesNothing : Prop :=
  (∀ s t : State, exec .clr s = .next t → exec .clr t = .next t) ∧
  (∀ s t : State, s.state ≠ .run → exec .start s = .next t → t.state = .run → exec .clr t = .next t)

/-- 42 R153 (a): directly after a CLR every code from `CLEAR + 2` up is unassigned, whatever the dictionary held. -/
def Obligations.NothingIsAssignedAfterClr : Prop :=
  ∀ (s t : State) (c : Code), nMin ≤ s.n → s.n ≤ nMax → exec .clr s = .next t → 2 ^ s.n + 2 ≤ c.toNat →
    classify t.ctx c = .unassigned c

/-- 41 R142, R143: EOI without and with the tail fetch: it halts in `DONE`, or raises `E_COUNT` or `E_AFTER_EOI`. -/
def Obligations.EoiHaltsTheEngine : Prop :=
  ∀ s : State,
    (s.cfg.tailCheck = false → s.outCount = s.expect →
      ∃ t, exec .eoi s = .next t ∧ t.state = .done ∧ t.err = s.err ∧ t.reader = s.reader ∧
        SameDictionary s t ∧ SameOutput s t ∧ SameInput s t ∧ SameSurroundings s t) ∧
    (s.cfg.tailCheck = false → s.outCount ≠ s.expect →
      ∃ t, exec .eoi s = .next t ∧ t.state = .error ∧ t.err = .count ∧ SameButStatus s t) ∧
    (s.cfg.tailCheck = true → ∀ c u, s.nextCode s.width.toNat = (some c, u) →
      ∃ t, exec .eoi s = .next t ∧ t.state = .error ∧ t.err = .afterEoi ∧ SameButStatus u t) ∧
    (s.cfg.tailCheck = true → ∀ u, s.nextCode s.width.toNat = (none, u) → s.outCount = s.expect →
      ∃ t, exec .eoi s = .next t ∧ t.state = .done ∧ t.err = s.err ∧ SameButStatus u t) ∧
    (s.cfg.tailCheck = true → ∀ u, s.nextCode s.width.toNat = (none, u) → s.outCount ≠ s.expect →
      ∃ t, exec .eoi s = .next t ∧ t.state = .error ∧ t.err = .count ∧ SameButStatus u t)

/-! ## The data codes -/

/-- 42 R150: LIT with no predecessor outputs one index and assigns nothing. -/
def Obligations.LitWithoutPredecessor : Prop :=
  ∀ (s : State) (k : Code), s.prev = none → s.outCount.toNat + 1 ≤ s.expect.toNat →
    ∃ t, exec (.lit k) s = .next t ∧ Emitted [k] s t ∧ t.prev = some k ∧ t.width = s.width ∧ t.next = s.next ∧
      t.dict = s.dict ∧ t.reader = s.reader ∧ t.state = s.state ∧ t.err = s.err ∧ SameInput s t ∧ SameSurroundings s t

/-- 42 R150: LIT with a predecessor outputs one index and assigns `STR(PREV) ++ [c]`. -/
def Obligations.LitWithPredecessor : Prop :=
  ∀ (s : State) (k p : Code), s.prev = some p → s.known p → s.outCount.toNat + 1 ≤ s.expect.toNat →
    ∃ t, exec (.lit k) s = .next t ∧ Emitted [k] s t ∧ Assigned p k s t ∧ t.prev = some k ∧
      t.reader = s.reader ∧ t.state = s.state ∧ t.err = s.err ∧ SameInput s t ∧ SameSurroundings s t

/-- 42 R151: REF outputs the string of its code and assigns `STR(PREV) ++ [First(c)]`. -/
def Obligations.RefOutputsItsString : Prop :=
  ∀ (s : State) (c p : Code) (S : List LzwSym) (f : LzwSym), s.prev = some p → s.known p → s.str? c = some S → s.first? c = some f →
    s.outCount.toNat + S.length ≤ s.expect.toNat →
    ∃ t, exec (.ref c) s = .next t ∧ Emitted S s t ∧ Assigned p f s t ∧ t.prev = some c ∧
      t.reader = s.reader ∧ t.state = s.state ∧ t.err = s.err ∧ SameInput s t ∧ SameSurroundings s t

/-- 42 R152: KWK outputs the previous string and its first symbol, assigns that string, and becomes the predecessor. -/
def Obligations.KwkExtendsThePreviousString : Prop :=
  ∀ (s : State) (p : Code) (S : List LzwSym) (f : LzwSym), s.prev = some p → s.known p → s.str? p = some S → s.first? p = some f →
    s.next.toNat < 4096 → s.outCount.toNat + S.length + 1 ≤ s.expect.toNat →
    ∃ t c, exec .kwk s = .next t ∧ Emitted (S ++ [f]) s t ∧ Assigned p f s t ∧ t.prev = some c ∧ c.toNat = s.next.toNat ∧
      t.reader = s.reader ∧ t.state = s.state ∧ t.err = s.err ∧ SameInput s t ∧ SameSurroundings s t

/-- 43 R171: an emission that would pass `EXPECT` raises `E_COUNT` and writes nothing, in each of the three instructions. -/
def Obligations.OverflowingEmissionWritesNothing : Prop :=
  ∀ s : State,
    (∀ k : Code, s.expect.toNat < s.outCount.toNat + 1 →
      ∃ t, exec (.lit k) s = .next t ∧ t.state = .error ∧ t.err = .count ∧ SameButStatus s t) ∧
    (∀ (c p : Code) (S : List LzwSym) (f : LzwSym), s.prev = some p → s.str? c = some S → s.first? c = some f →
      s.expect.toNat < s.outCount.toNat + S.length →
      ∃ t, exec (.ref c) s = .next t ∧ t.state = .error ∧ t.err = .count ∧ SameButStatus s t) ∧
    (∀ (p : Code) (S : List LzwSym) (f : LzwSym), s.prev = some p → s.str? p = some S → s.first? p = some f → s.next.toNat < 4096 →
      s.expect.toNat < s.outCount.toNat + S.length + 1 →
      ∃ t, exec .kwk s = .next t ∧ t.state = .error ∧ t.err = .count ∧ SameButStatus s t)

/-- 42 R153: the reserved range raises `E_UNASSIGNED` and does nothing else. -/
def Obligations.UnassignedRaises : Prop :=
  ∀ (s : State) (c : Code),
    ∃ t, exec (.unassigned c) s = .next t ∧ t.state = .error ∧ t.err = .unassigned ∧ SameButStatus s t

/-- Where REF, KWK and LIT stop: REF and KWK without a predecessor, KWK with a full dictionary, and a code that has no string. The
model's own stops (log 11), on operands the rules of 42 exclude; no run reaches them. -/
def Obligations.DataCodesStopOutsideTheirRequirements : Prop :=
  ∀ s : State,
    (s.prev = none → (∀ c, exec (.ref c) s = .fault .noPredecessor) ∧ exec .kwk s = .fault .noPredecessor) ∧
    (∀ p, s.prev = some p →
      (s.next.toNat = 4096 → exec .kwk s = .fault .dictionaryFull) ∧
      (∀ c, ¬s.bound c → exec (.ref c) s = .fault .unboundCode) ∧
      (s.next.toNat < 4096 → ¬s.bound p → exec .kwk s = .fault .unboundCode) ∧
      (∀ k, s.next.toNat < 4096 → ¬s.bound p → s.outCount.toNat + 1 ≤ s.expect.toNat → exec (.lit k) s = .fault .unboundCode))

/-- The frame of the six codes, whatever the operands and the state: the input, the configuration registers and the model's
surroundings; the bit reader but for EOI; for every data code the slots other than `NEXT`, and the entries of `OUT` outside the
ones counted in. -/
def Obligations.CodesLeaveTheRestAlone : Prop :=
  ∀ s t : State,
    (∀ i, i = .clr ∨ i = .eoi ∨ i = .kwk ∨ (∃ c, i = .lit c ∨ i = .ref c ∨ i = .unassigned c) → exec i s = .next t →
      SameInput s t ∧ SameSurroundings s t) ∧
    (exec .clr s = .next t → t.reader = s.reader ∧ t.dict = s.dict ∧ SameOutput s t ∧ t.state = s.state ∧ t.err = s.err) ∧
    (exec .eoi s = .next t → SameDictionary s t ∧ SameOutput s t ∧ (s.cfg.tailCheck = false → t.reader = s.reader)) ∧
    (∀ i, i = .kwk ∨ (∃ c, i = .lit c ∨ i = .ref c) → exec i s = .next t →
      t.reader = s.reader ∧ (∀ c, c ≠ s.next.toNat → t.dict.read? c = s.dict.read? c) ∧
      s.outCount.toNat ≤ t.outCount.toNat ∧
      (∀ k, k < s.outCount.toNat ∨ t.outCount.toNat ≤ k → t.out.read? k = s.out.read? k)) ∧
    (∀ c, exec (.unassigned c) s = .next t → t.reader = s.reader ∧ SameDictionary s t ∧ SameOutput s t)

/-! ## Dictionary growth -/

/-- 42 R155, R157: where the width can still express `NEXT`, it grows exactly when `NEXT` becomes `2^WIDTH`; in the corner of
`n = 1` at the first assignment. -/
def Obligations.WidthGrowsWhenNextPassesIt : Prop :=
  ∀ (s : State) (e : DictEntry),
    (s.next.toNat ≤ 2 ^ s.width.toNat - 1 → s.width.toNat ≤ 12 →
      (s.bindSlot e).growWidth.width.toNat =
        if s.next.toNat + 1 = 2 ^ s.width.toNat ∧ s.width.toNat < 12 then s.width.toNat + 1 else s.width.toNat) ∧
    (s.width.toNat = 2 → s.next.toNat = 4 →
      (s.bindSlot e).growWidth.width.toNat = 3 ∧ (s.bindSlot e).growWidth.next.toNat = 5)

/-- 10 R42 to R44: in a running engine every bound code has a string: not empty, of the length Len gives, beginning with First,
its symbols base literals, at most 4093 long. -/
def Obligations.EveryBoundCodeHasAString : Prop :=
  ∀ (s : State) (c : Code), RunInv s → s.bound c →
    ∃ (S : List LzwSym) (l : BitVec 13), s.str? c = some S ∧ s.len? c = some l ∧ S.length = l.toNat ∧ 1 ≤ S.length ∧
      S.length ≤ 4093 ∧ S.head? = s.first? c ∧ ∀ x ∈ S, x.toNat < 2 ^ s.n

/-- 42 R154, R159: in a running engine a data code with room in the dictionary binds the old `NEXT` to the previous string and
the first symbol of its own string (LIT: the literal); after KWK the new predecessor's string is exactly what was output. -/
def Obligations.AssignedStringIsPreviousPlusFirst : Prop :=
  ∀ (s t : State) (i : Instr) (p q : Code) (P : List LzwSym), RunInv s → s.prev = some p → s.str? p = some P →
    s.next.toNat < 4096 → q.toNat = s.next.toNat → exec i s = .next t → t.state = s.state → s.state = .run →
    (∀ k : Code, k.toNat < 2 ^ s.n → i = .lit k → t.str? q = some (P ++ [k])) ∧
    (∀ (c : Code) (S : List LzwSym) (f : LzwSym), i = .ref c → s.str? c = some S → S.head? = some f → t.str? q = some (P ++ [f])) ∧
    (∀ f : LzwSym, i = .kwk → P.head? = some f →
      t.str? q = some (P ++ [f]) ∧ t.prev = some q ∧ Emitted (P ++ [f]) s t)

/-- 10 R42: a bound string never changes while it stays bound; only CLR unbinds. -/
def Obligations.BoundStringsNeverChange : Prop :=
  ∀ (s t : State) (i : Instr) (c : Code), RunInv s → exec i s = .next t →
    i = .kwk ∨ (∃ k, i = .lit k ∨ i = .ref k ∨ i = .unassigned k) ∨ i = .eoi → s.bound c → t.bound c ∧ t.str? c = s.str? c

/-- 42 R156: with the dictionary full, every code but the two reserved ones is a literal or an assigned code. -/
def Obligations.FullDictionaryLeavesNoCodeUnassigned : Prop :=
  ∀ (x : CodeCtx) (c : Code), x.Legal → x.next.toNat = 4096 → c.toNat ≠ 2 ^ x.n → c.toNat ≠ 2 ^ x.n + 1 →
    classify x c = if c.toNat < 2 ^ x.n then .lit c else .ref c

/-! ## The host commands and accesses -/

/-- 44 R181: START when its three tests pass. -/
def Obligations.StartBeginsARun : Prop :=
  ∀ s : State, s.state ≠ .run → 1 ≤ s.n → s.n ≤ 11 → s.expect.toNat ≤ s.cfg.outCap.toNat → s.sbCount.toNat ≤ s.cfg.sbMax →
    ∃ t, exec .start s = .next t ∧ t.state = .run ∧ t.err = .none ∧ t.outCount = 0 ∧ t.reader = ⟨0, 0, 0, 0⟩ ∧
      t.bitpos = 0 ∧ t.width.toNat = s.n + 1 ∧ t.next.toNat = 2 ^ s.n + 2 ∧ t.prevValid = false ∧
      t.dict = s.dict ∧ t.out = s.out ∧ SameInput s t ∧ SameSurroundings s t

/-- 44 R181: START when a test fails: `E_CONFIG`, no run. -/
def Obligations.StartRefusesABadConfiguration : Prop :=
  ∀ s : State, s.state ≠ .run →
    s.n < 1 ∨ 11 < s.n ∨ s.cfg.outCap.toNat < s.expect.toNat ∨ s.cfg.sbMax < s.sbCount.toNat →
    ∃ t, exec .start s = .next t ∧ t.state = .error ∧ t.err = .config ∧ t.outCount = 0 ∧ t.out = s.out ∧
      t.reader = s.reader ∧ SameDictionary s t ∧ SameInput s t ∧ SameSurroundings s t

/-- 44 R182: START in `RUN` is ignored. -/
def Obligations.StartInRunIsIgnored : Prop := ∀ s : State, s.state = .run → exec .start s = .next s

/-- 10 R24: `EXPECT` is the exact product, which fits 32 bits; the host cannot write it, and it is constant during a run. -/
def Obligations.ExpectIsTheExactProduct : Prop :=
  (∀ s : State, s.expect.toNat = s.imgW.toNat * s.imgH.toNat ∧ s.expect.toNat ≤ 4294836225) ∧
  (∀ (s : State) (rest : List Turn) (v : Word), s.agenda = .host (.regWrite 5 v) :: rest → step s = .next (s.setAgenda rest)) ∧
  (∀ s t : State, s.state = .run → s.hostMove? ≠ some .reset → step s = .next t → t.expect = s.expect)

/-- 10 R27: the fields of `STATUS`; `ERR ≠ 0` exactly in `ERROR`; a write is ignored and a read has no side effect. -/
def Obligations.StatusFields : Prop :=
  (∀ s : State,
    s.status.extractLsb' 0 2 = (match s.state with | .idle => 0 | .run => 1 | .done => 2 | .error => 3) ∧
    s.status.extractLsb' 2 2 = 0 ∧
    s.status.extractLsb' 4 3 =
      (match s.err with | .none => 0 | .trunc => 1 | .unassigned => 2 | .count => 3 | .afterEoi => 4 | .config => 5) ∧
    s.status.extractLsb' 7 25 = 0) ∧
  (∀ s : State, MachineInv s → (s.status.extractLsb' 4 3 ≠ 0 ↔ s.status.extractLsb' 0 2 = 3)) ∧
  (∀ (s : State) (rest : List Turn), s.agenda = .host (.regRead 1) :: rest → step s = .next ((s.setAgenda rest).answer s.status)) ∧
  (∀ (s : State) (rest : List Turn) (v : Word), s.agenda = .host (.regWrite 1 v) :: rest → step s = .next (s.setAgenda rest))

/-- 44 R183, 10 R29: RegRead returns the register zero-extended, in any state, with no side effect. -/
def Obligations.RegisterReadsReturnTheRegister : Prop :=
  ∀ (s : State) (rest : List Turn) (r : Nat), s.agenda = .host (.regRead r) :: rest →
    ∃ t, step s = .next t ∧ SameButStatus ((s.setAgenda rest).answer t.hostData) t ∧ t.state = s.state ∧ t.err = s.err ∧
      (r = 0 ∨ 8 ≤ r → t.hostData = 0) ∧ (r = 1 → t.hostData = s.status) ∧ (r = 2 → t.hostData.toNat = s.mcs.toNat) ∧
      (r = 3 → t.hostData.toNat = s.imgW.toNat) ∧ (r = 4 → t.hostData.toNat = s.imgH.toNat) ∧ (r = 5 → t.hostData = s.expect) ∧
      (r = 6 → t.hostData = s.outCount) ∧ (r = 7 → t.hostData = s.sbCount)

/-- 44 R183: RegWrite of a register other than `CTRL`: the low bits stored outside `RUN`, ignored in `RUN`; the read-only
registers and the numbers from 8 up ignored always. -/
def Obligations.RegisterWritesStoreTheLowBits : Prop :=
  ∀ (s : State) (rest : List Turn) (r : Nat) (v : Word), s.agenda = .host (.regWrite r v) :: rest → r ≠ 0 →
    let u := s.setAgenda rest
    (s.state = .run ∨ r = 1 ∨ r = 5 ∨ r = 6 ∨ 8 ≤ r → step s = .next u) ∧
    (s.state ≠ .run →
      (r = 2 → step s = .next { u with mcs := BitVec.ofNat 8 v.toNat }) ∧
      (r = 3 → step s = .next { u with imgW := BitVec.ofNat 16 v.toNat }) ∧
      (r = 4 → step s = .next { u with imgH := BitVec.ofNat 16 v.toNat }) ∧
      (r = 7 → step s = .next { u with sbCount := v }))

/-- 44 R184, 20 R61: InWrite stores one byte outside `RUN` and changes nothing else; it is ignored in `RUN`; the addresses beyond
the store fault (the model's fault, log 13). -/
def Obligations.InputWritesStoreOneByte : Prop :=
  ∀ (s : State) (rest : List Turn) (a : Nat) (b : Byte), s.agenda = .host (.inWrite a b) :: rest →
    (256 * s.cfg.sbMax ≤ a → step s = .fault .inAddress) ∧
    (a < 256 * s.cfg.sbMax → s.state = .run → step s = .next (s.setAgenda rest)) ∧
    (a < 256 * s.cfg.sbMax → s.state ≠ .run → ∃ t, step s = .next t ∧ t.inByte a = b ∧
      (∀ a', a' ≠ a → t.inByte a' = s.inByte a') ∧
      (a % 256 = 0 → t.sbLen (a / 256) = b) ∧ (a % 256 ≠ 0 → t.sbByte (a / 256) (a % 256 - 1) = b) ∧
      t.agenda = rest ∧ t.state = s.state ∧ t.err = s.err ∧ t.mcs = s.mcs ∧ t.imgW = s.imgW ∧ t.imgH = s.imgH ∧
      t.sbCount = s.sbCount ∧ t.reader = s.reader ∧ SameDictionary s t ∧ SameOutput s t ∧ t.cfg = s.cfg ∧
      t.hostData = s.hostData ∧ t.freeCtr = s.freeCtr ∧ t.inEpoch = s.inEpoch)

/-- 44 R184: InRead returns the stored byte in any state and changes nothing else. -/
def Obligations.InputReadsReturnTheStoredByte : Prop :=
  ∀ (s : State) (rest : List Turn) (a : Nat), s.agenda = .host (.inRead a) :: rest → a < 256 * s.cfg.sbMax →
    ∃ v : Word, step s = .next ((s.setAgenda rest).answer v) ∧ (∀ b, s.inMem.read? a = some b → v.toNat = b.toNat)

/-- 43 R173, R185: OutRead outside `RUN` of an index emitted in this run returns it zero-extended; any OutRead changes nothing
but the word returned and, where the value is free, the count of free values drawn. -/
def Obligations.OutputReadsReturnTheIndex : Prop :=
  ∀ (s : State) (rest : List Turn) (k : Nat), s.agenda = .host (.outRead k) :: rest →
    (∃ (v : Word) (m : Nat), step s = .next { (s.setAgenda rest).answer v with freeCtr := m }) ∧
    (∀ x : LzwSym, s.state ≠ .run → k < s.outCount.toNat → s.out.read? k = some x →
      step s = .next ((s.setAgenda rest).answer (BitVec.ofNat 32 x.toNat)))

/-! ## The whole machine -/

/-- The invariant holds at reset. -/
def Obligations.ResetMeetsTheInvariant : Prop := MachineInv State.reset

/-- Every step, the host's moves among them, keeps the invariant: canonical stores, `ERR ≠ 0` exactly in `ERROR` (10 R27), and in
`RUN` the invariants of 10 R28, R31, R32, R35 to R39, R42 to R44, R49 and 43 R171. -/
def Obligations.EveryStepKeepsTheInvariant : Prop := ∀ s t : State, MachineInv s → step s = .next t → MachineInv t

/-- No step of an invariant state faults or is refused, but for a host access beyond the input store (log 13). -/
def Obligations.StepsNeverStop : Prop :=
  ∀ s : State, MachineInv s →
    (∃ t, step s = .next t) ∨
      (step s = .fault .inAddress ∧ ∃ a, 256 * s.cfg.sbMax ≤ a ∧
        (s.hostMove? = some (.inRead a) ∨ ∃ b, s.hostMove? = some (.inWrite a b)))

/-- 20 R77: while `STATE = RUN` no step but a reset changes `IN`, `MCS`, `IMG_W`, `IMG_H` or `SB_COUNT`. -/
def Obligations.InputIsImmutableInRun : Prop :=
  ∀ s t : State, s.state = .run → s.hostMove? ≠ some .reset → step s = .next t → SameInput s t

/-- 10 R40: the only transitions of `STATE`. -/
def Obligations.StateChangesOnlyAsListed : Prop :=
  ∀ s t : State, step s = .next t → t.state ≠ s.state →
    (t.state = .idle ∧ s.hostMove? = some .reset) ∨
    (t.state = .run ∧ s.hostStarts) ∨
    (t.state = .error ∧ t.err = .config ∧ s.state ≠ .run ∧ s.hostStarts) ∨
    (s.state = .run ∧ s.engineTurn ∧ (t.state = .done ∨ t.state = .error))

/-- 60 R206: an error of an engine step leaves the output, the dictionary and the input alone; `BITPOS` stays for `E_TRUNC` and is
past the failing code for every other cause. -/
def Obligations.ErrorsArePrecise : Prop :=
  ∀ s t : State, MachineInv s → s.state = .run → s.engineTurn → step s = .next t → t.state = .error →
    SameDictionary s t ∧ SameOutput s t ∧ SameInput s t ∧ (t.err = .trunc → t.bitpos = s.bitpos) ∧
      (t.err = .unassigned ∨ t.err = .count → t.bitpos = s.bitpos + s.width.toNat) ∧
      (t.err = .afterEoi → t.bitpos = s.bitpos + s.width.toNat + s.width.toNat)

/-- 60 R205, R202 to R204: which cause an engine step reports, decided by the fetch, then the classification, then the counts. -/
def Obligations.CausesFollowTheOrderOfTheTests : Prop :=
  ∀ s t : State, MachineInv s → s.state = .run → s.engineTurn → step s = .next t →
    (codeAt s.inBytes s.bitpos s.width.toNat = none ↔ t.err = .trunc) ∧
    (∀ c, codeAt s.inBytes s.bitpos s.width.toNat = some c →
      (classify s.ctx c = .unassigned c ↔ t.err = .unassigned) ∧
      (t.err = .afterEoi → classify s.ctx c = .eoi ∧ s.cfg.tailCheck = true) ∧
      (t.err = .count → classify s.ctx c = .eoi ∧ s.outCount.toNat < s.expect.toNat ∨
        ∃ S, (classify s.ctx c = .lit c ∧ S = [c] ∨ classify s.ctx c = .ref c ∧ s.str? c = some S ∨
          classify s.ctx c = .kwk ∧ ∃ p P f, s.prev = some p ∧ s.str? p = some P ∧ P.head? = some f ∧ S = P ++ [f]) ∧
          s.expect.toNat < s.outCount.toNat + S.length)) ∧
    t.err ≠ .config

/-- 43 R172, R174: a step that ends the run in `DONE` has `OUT_COUNT = IMG_W × IMG_H`, every index of the result is below `2^n`,
and the result is that sequence. 10 R47: in any `DONE` state the result is exactly `EXPECT` indices, those below `OUT_COUNT` the
ones emitted; in `ERROR` it is the cause alone; in `IDLE` and `RUN` there is none. -/
def Obligations.DoneMeansTheExactCount : Prop :=
  (∀ s t : State, MachineInv s → s.state = .run → step s = .next t → t.state = .done →
    t.outCount.toNat = t.imgW.toNat * t.imgH.toNat ∧
      ∃ l, t.result = .ok l ∧ l.length = t.imgW.toNat * t.imgH.toNat ∧ (∀ x ∈ l, x.toNat < 2 ^ t.n) ∧
        ∀ k < l.length, t.out.read? k = l[k]?) ∧
  (∀ s : State, s.state = .done →
    ∃ l, s.result = .ok l ∧ l.length = s.expect.toNat ∧
      ∀ k x, k < s.outCount.toNat → k < s.expect.toNat → s.out.read? k = some x → l[k]? = some x) ∧
  (∀ s : State, s.state = .error → s.result = .err s.err) ∧
  (∀ s : State, s.state = .idle ∨ s.state = .run → s.result = .absent)

/-- 40 R132: an engine step halts the engine or advances `BITPOS` by `WIDTH`, which is at least 2; a run that the host does not
reset ends in `DONE` or `ERROR` after at most `4 T + 1` engine turns, whatever else the host does among them (moves beyond the
input store, which stop the model, excepted: log 13). -/
def Obligations.EveryRunEnds : Prop :=
  (∀ s t : State, MachineInv s → s.state = .run → s.engineTurn → step s = .next t → t.state = .run →
    t.bitpos = s.bitpos + s.width.toNat ∧ 2 ≤ s.width.toNat ∧ t.bitpos ≤ 8 * s.inBytes.length ∧ t.inBytes = s.inBytes) ∧
  (∀ s : State, MachineInv s → s.state = .run → (∀ m, .host m ∈ s.agenda → m ≠ .reset ∧ m.inStore s) →
    ∃ (k : Nat) (t : State), k ≤ hostTurns (s.agenda.take k) + (4 * s.inBytes.length + 1) ∧ core.run k s = .next t ∧
      (t.state = .done ∨ t.state = .error))

/-- 20 R62: how the bytes are split into sub-blocks cannot be observed: one engine step takes two such states to two such
states. -/
def Obligations.SplittingTheInputCannotBeObserved : Prop :=
  ∀ s₁ s₂ : State, MachineInv s₁ → MachineInv s₂ → s₁.state = .run → s₁.engineTurn → SameButSplit s₁ s₂ →
    ∃ t₁ t₂, step s₁ = .next t₁ ∧ step s₂ = .next t₂ ∧ SameButSplit t₁ t₂

/-- 00 R6: the parameters are no state of the block: no step, and no reset, changes them. -/
def Obligations.ParametersNeverChange : Prop := ∀ s t : State, step s = .next t → t.cfg = s.cfg
end

