-- ==== Sys2Proof/Laws/Memory.lean ====
section
/-! SUPPORT. The laws of the stores: a read after a write, writes elsewhere, and the canonical form kept. -/
namespace Sys2Proof.Machine

@[simp] theorem Memory.read?_write_same {α : Type} (m : Memory α) (a : Nat) (v : α) : (m.write a v).read? a = some v := by
  induction m with
  | nil => simp [Memory.write, Memory.read?]
  | cons p rest ih =>
    obtain ⟨k, x⟩ := p
    unfold Memory.write
    split
    · simp [Memory.read?]
    · split
      · simp [Memory.read?]
      · rename_i h1 h2
        simp [Memory.read?, ih, Ne.symm h2]

theorem Memory.read?_write_ne {α : Type} (m : Memory α) {a b : Nat} (v : α) (h : b ≠ a) : (m.write a v).read? b = m.read? b := by
  induction m with
  | nil => simp [Memory.write, Memory.read?, h.symm]
  | cons p rest ih =>
    obtain ⟨k, x⟩ := p
    unfold Memory.write
    split
    · simp [Memory.read?, h.symm]
    · split
      · rename_i h2
        subst h2
        simp [Memory.read?, h.symm]
      · simp [Memory.read?, ih]

theorem Memory.read?_write {α : Type} (m : Memory α) (a b : Nat) (v : α) :
    (m.write a v).read? b = if b = a then some v else m.read? b := by
  by_cases h : b = a
  · simp [h]
  · simp [h, Memory.read?_write_ne m v h]

/-- The indices after a write are the indices before and the one written. -/
theorem Memory.mem_write {α : Type} (m : Memory α) (a : Nat) (v : α) (p : Nat × α) (h : p ∈ m.write a v) : p.1 = a ∨ p ∈ m := by
  induction m with
  | nil => simp [Memory.write] at h; simp [h]
  | cons q rest ih =>
    obtain ⟨k, x⟩ := q
    unfold Memory.write at h
    split at h
    · rcases List.mem_cons.mp h with rfl | h
      · exact .inl rfl
      · exact .inr h
    · split at h
      · rcases List.mem_cons.mp h with rfl | h
        · exact .inl rfl
        · exact .inr (List.mem_cons_of_mem _ h)
      · rcases List.mem_cons.mp h with rfl | h
        · exact .inr (List.mem_cons_self ..)
        · exact (ih h).imp id (List.mem_cons_of_mem _)

theorem Memory.wf_nil {α : Type} : Memory.wf ([] : Memory α) := List.Pairwise.nil

/-- A write keeps the canonical form. -/
theorem Memory.wf_write {α : Type} (m : Memory α) (a : Nat) (v : α) (h : m.wf) : (m.write a v).wf := by
  induction m with
  | nil => simp [Memory.write, Memory.wf]
  | cons p rest ih =>
    obtain ⟨k, x⟩ := p
    obtain ⟨hk, hrest⟩ := List.pairwise_cons.mp h
    unfold Memory.write
    split
    · rename_i hlt
      refine List.pairwise_cons.mpr ⟨fun q hq => ?_, h⟩
      rcases List.mem_cons.mp hq with rfl | hq
      · exact hlt
      · exact Nat.lt_trans hlt (hk q hq)
    · split
      · rename_i heq
        exact List.pairwise_cons.mpr ⟨fun q hq => heq ▸ hk q hq, hrest⟩
      · rename_i h1 h2
        refine List.pairwise_cons.mpr ⟨fun q hq => ?_, ih hrest⟩
        rcases Memory.mem_write rest a v q hq with hq | hq
        · show k < q.1
          omega
        · exact hk q hq

theorem Memory.wf_writeList {α : Type} (m : Memory α) (a : Nat) (vs : List α) (h : m.wf) : (m.writeList a vs).wf := by
  induction vs generalizing m a with
  | nil => exact h
  | cons v vs ih => exact ih _ _ (Memory.wf_write m a v h)

/-- Reading after a run of writes: the entry written there, and every other entry as before. -/
theorem Memory.read?_writeList {α : Type} (m : Memory α) (a b : Nat) (vs : List α) :
    (m.writeList a vs).read? b = if a ≤ b ∧ b < a + vs.length then vs[b - a]? else m.read? b := by
  induction vs generalizing m a with
  | nil => simp [Memory.writeList]
  | cons v vs ih =>
    rw [Memory.writeList, ih, Memory.read?_write]
    by_cases h : b = a
    · subst h
      simp
    · by_cases h2 : a + 1 ≤ b ∧ b < a + 1 + vs.length
      · have h3 : a ≤ b ∧ b < a + (v :: vs).length := by simp; omega
        rw [if_pos h2, if_pos h3]
        obtain ⟨d, rfl⟩ : ∃ d, b = a + 1 + d := ⟨b - (a + 1), by omega⟩
        have e1 : a + 1 + d - a = d + 1 := by omega
        have e2 : a + 1 + d - (a + 1) = d := by omega
        rw [e1, e2, List.getElem?_cons_succ]
      · have h3 : ¬(a ≤ b ∧ b < a + (v :: vs).length) := by simp; omega
        rw [if_neg h2, if_neg h3, if_neg h]

/-- Two canonical stores that read the same everywhere are the same data. -/
theorem Memory.ext_of_read? {α : Type} (m₁ m₂ : Memory α) (h₁ : m₁.wf) (h₂ : m₂.wf) (h : ∀ a, m₁.read? a = m₂.read? a) : m₁ = m₂ := by
  have below : ∀ (m : Memory α) (a : Nat), (∀ q ∈ m, a < q.1) → m.read? a = none := by
    intro m a hm
    induction m with
    | nil => rfl
    | cons q rest ih =>
      obtain ⟨k, x⟩ := q
      have hk : a < k := hm (k, x) (List.mem_cons_self ..)
      rw [Memory.read?, if_neg (by omega)]
      exact ih fun q hq => hm q (List.mem_cons_of_mem _ hq)
  induction m₁ generalizing m₂ with
  | nil =>
    cases m₂ with
    | nil => rfl
    | cons q rest =>
      have := h q.1
      simp [Memory.read?] at this
  | cons p rest ih =>
    obtain ⟨k, x⟩ := p
    obtain ⟨hk, hrest⟩ := List.pairwise_cons.mp h₁
    cases m₂ with
    | nil =>
      have := h k
      simp [Memory.read?] at this
    | cons q rest' =>
      obtain ⟨k', x'⟩ := q
      obtain ⟨hk', hrest'⟩ := List.pairwise_cons.mp h₂
      have hkk : k = k' := by
        rcases Nat.lt_trichotomy k k' with hlt | heq | hlt
        · have e := h k
          rw [below ((k', x') :: rest') k fun q hq => by
            rcases List.mem_cons.mp hq with rfl | hq
            · exact hlt
            · exact Nat.lt_trans hlt (hk' q hq)] at e
          simp [Memory.read?] at e
        · exact heq
        · have e := h k'
          rw [below ((k, x) :: rest) k' fun q hq => by
            rcases List.mem_cons.mp hq with rfl | hq
            · exact hlt
            · exact Nat.lt_trans hlt (hk q hq)] at e
          simp [Memory.read?] at e
      subst hkk
      have hx : x = x' := by simpa [Memory.read?] using h k
      subst hx
      congr 1
      refine ih rest' hrest hrest' fun a => ?_
      by_cases ha : k = a
      · subst ha
        rw [below rest k hk, below rest' k hk']
      · simpa [Memory.read?, ha] using h a

end Sys2Proof.Machine
end

