-- ==== Sys2Proof/Laws/Ops.lean ====
section
/-! SUPPORT. For each shared operation, once, everything it can do. -/
namespace Sys2Proof.Machine

/-- Emission, when the count fits: the count as a natural number. -/
theorem State.emit_count (s : State) (S : List LzwSym) (h : ¬s.overflows S.length) :
    (s.emit S).outCount.toNat = s.outCount.toNat + S.length := by
  have h1 := s.expect.isLt
  simp only [State.overflows] at h
  simp only [State.emit_outCount, BitVec.toNat_add, BitVec.toNat_ofNat, Nat.add_mod_mod]
  exact Nat.mod_eq_of_lt (by omega)

/-- `Emit(S)` (43 R170) when it does not overflow. -/
theorem State.emit_emitted (s : State) (S : List LzwSym) (h : ¬s.overflows S.length) : Emitted S s (s.emit S) where
  count := s.emit_count S h
  entries i hi := by
    rw [State.emit_out, Memory.read?_writeList, if_pos ⟨by omega, by omega⟩]
    congr 1
    omega
  others k hk := by rw [State.emit_out, Memory.read?_writeList, if_neg (by omega)]

/-- What `Assign` answers: nothing to do, one slot bound and the width grown by the rule, or a code without a string. -/
theorem State.assign?_cases (p : Code) (x : LzwSym) (s : State) :
    (s.dictFull ∧ s.assign? p x = some s) ∨
    (¬s.dictFull ∧ ∃ f l, s.first? p = some f ∧ s.len? p = some l ∧
      s.assign? p x = some (s.bindSlot ⟨p, x, f, l + 1⟩).growWidth) ∨
    (¬s.dictFull ∧ ¬s.known p ∧ s.assign? p x = none) := by
  unfold State.assign?
  by_cases hf : s.dictFull
  · exact .inl ⟨hf, if_pos hf⟩
  · rw [if_neg hf]
    unfold State.known
    cases h1 : s.first? p <;> cases h2 : s.len? p <;> simp [hf]

/-- What an assignment that answers can leave: every field but `NEXT`, `WIDTH` and `DICT` as before. -/
theorem State.assign?_frame {p : Code} {x : LzwSym} {s t : State} (h : s.assign? p x = some t) :
    t.state = s.state ∧ t.err = s.err ∧ t.reader = s.reader ∧ t.prev = s.prev ∧ SameInput s t ∧ SameSurroundings s t ∧
      SameOutput s t := by
  rcases s.assign?_cases p x with ⟨-, e⟩ | ⟨-, f, l, -, -, e⟩ | ⟨-, -, e⟩
  · obtain rfl := Option.some.inj (e.symm.trans h)
    exact ⟨rfl, rfl, rfl, rfl, ⟨rfl, rfl, rfl, rfl, rfl, rfl⟩, ⟨rfl, rfl, rfl, rfl⟩, ⟨rfl, rfl⟩⟩
  · obtain rfl := Option.some.inj (e.symm.trans h)
    exact ⟨by simp, by simp, by simp, by simp, ⟨by simp, by simp, by simp, by simp, by simp, by simp⟩,
      ⟨by simp, by simp, by simp, by simp⟩, ⟨by simp, by simp⟩⟩
  · rw [e] at h
    cases h

/-- `NEXT` and `WIDTH` after a slot is bound and the growth test made, as natural numbers (42 R154, R155). -/
theorem State.bindSlot_growWidth_toNat (s : State) (e : DictEntry) (h : ¬s.dictFull) :
    (s.bindSlot e).growWidth.next.toNat = s.next.toNat + 1 ∧
    (s.bindSlot e).growWidth.width.toNat =
      if 2 ^ s.width.toNat - 1 < s.next.toNat + 1 ∧ s.width.toNat < codeMaxW then s.width.toNat + 1 else s.width.toNat := by
  simp only [State.dictFull, dictSize] at h
  have hn : (s.next + 1).toNat = s.next.toNat + 1 := by
    rw [BitVec.toNat_add]
    exact Nat.mod_eq_of_lt (by simp; omega)
  refine ⟨by rw [State.growWidth_next, State.bindSlot_next, hn], ?_⟩
  rw [State.growWidth_width]
  simp only [State.bindSlot_next, State.bindSlot_width, growTest, hn, codeMaxW]
  by_cases hg : 2 ^ s.width.toNat - 1 < s.next.toNat + 1 ∧ s.width.toNat < 12
  · rw [if_pos hg, if_pos hg, BitVec.toNat_add]
    exact Nat.mod_eq_of_lt (by simp; omega)
  · rw [if_neg hg, if_neg hg]

/-- An assignment that answers is what 42 R154 to R156 say. -/
theorem State.assign?_assigned {p : Code} {x : LzwSym} {s t : State} (h : s.assign? p x = some t) : Assigned p x s t := by
  rcases s.assign?_cases p x with ⟨hf, e⟩ | ⟨hf, f, l, h1, h2, e⟩ | ⟨-, -, e⟩
  · obtain rfl := Option.some.inj (e.symm.trans h)
    simp only [State.dictFull] at hf
    exact ⟨fun h => by omega, fun _ _ => rfl, (if_neg (by omega)).symm, (if_neg (by omega)).symm, fun _ => rfl⟩
  · obtain rfl := Option.some.inj (e.symm.trans h)
    have hg := s.bindSlot_growWidth_toNat ⟨p, x, f, l + 1⟩ hf
    simp only [State.dictFull] at hf
    refine ⟨fun _ => ⟨f, l, h1, h2, by simp⟩, fun c hc => by simp [Memory.read?_write_ne _ _ hc], ?_, ?_, fun h => by omega⟩
    · rw [hg.1, if_pos (by omega)]
    · rw [hg.2]
      have : s.next.toNat < dictSize := by omega
      simp [this]
  · rw [e] at h
    cases h

/-- What the shared tail of LIT, REF and KWK answers (42 R150 to R152). -/
theorem State.emitAssign_cases (S : List LzwSym) (p : Code) (x : LzwSym) (c : Code) (s : State) :
    (s.overflows S.length ∧ s.emitAssign S p x c = .next (s.raise .count)) ∨
    (¬s.overflows S.length ∧ ∃ u, (s.emit S).assign? p x = some u ∧ s.emitAssign S p x c = .next (u.setPrev c)) ∨
    (¬s.overflows S.length ∧ (s.emit S).assign? p x = none ∧ s.emitAssign S p x c = .fault .unboundCode) := by
  unfold State.emitAssign
  by_cases h : s.overflows S.length
  · exact .inl ⟨h, if_pos h⟩
  · rw [if_neg h]
    cases h2 : (s.emit S).assign? p x with
    | none => exact .inr (.inr ⟨h, rfl, rfl⟩)
    | some u => exact .inr (.inl ⟨h, u, rfl, rfl⟩)

/-- The string reads do not see the output. -/
@[simp] theorem State.emit_slot? (s : State) (S : List LzwSym) (c : Code) : (s.emit S).slot? c = s.slot? c := rfl
@[simp] theorem State.emit_first? (s : State) (S : List LzwSym) (c : Code) : (s.emit S).first? c = s.first? c := rfl
@[simp] theorem State.emit_len? (s : State) (S : List LzwSym) (c : Code) : (s.emit S).len? c = s.len? c := rfl

/-- Emission then assignment, when it answers, with the predecessor set: the effect of 42 R150 to R152. -/
theorem State.emitAssign_next {S : List LzwSym} {p : Code} {x : LzwSym} {c : Code} {s t : State}
    (h : s.emitAssign S p x c = .next t) :
    (s.overflows S.length ∧ t = s.raise .count) ∨
    (¬s.overflows S.length ∧ Emitted S s t ∧ Assigned p x s t ∧ t.prev = some c ∧ t.reader = s.reader ∧ t.state = s.state ∧
      t.err = s.err ∧ SameInput s t ∧ SameSurroundings s t) := by
  rcases s.emitAssign_cases S p x c with ⟨ho, e⟩ | ⟨ho, u, hu, e⟩ | ⟨-, -, e⟩
  · exact .inl ⟨ho, by rw [e] at h; cases h; rfl⟩
  · rw [e] at h
    cases h
    have hf := State.assign?_frame hu
    have ha := State.assign?_assigned hu
    have he := s.emit_emitted S ho
    obtain ⟨h1, h2, h3, -, h5, h6, h7⟩ := hf
    refine .inr ⟨ho, ⟨?_, ?_, ?_⟩, ?_, rfl, h3, h1, h2, ?_, ?_⟩
    · rw [State.setPrev_outCount, h7.outCount]
      exact he.count
    · intro i hi
      rw [State.setPrev_out, h7.out]
      exact he.entries i hi
    · intro k hk
      rw [State.setPrev_out, h7.out]
      exact he.others k hk
    · exact ⟨ha.slot, ha.others, ha.next, ha.width, ha.full⟩
    · exact ⟨h5.mcs, h5.imgW, h5.imgH, h5.sbCount, h5.inMem, h5.inEpoch⟩
    · exact ⟨h6.cfg, h6.agenda, h6.hostData, h6.freeCtr⟩
  · rw [e] at h
    cases h

/-- The tail completes when it does not overflow and the previous string is known. -/
theorem State.emitAssign_completes (S : List LzwSym) (p : Code) (x : LzwSym) (c : Code) (s : State) (hk : s.known p)
    (ho : ¬s.overflows S.length) : ∃ t, s.emitAssign S p x c = .next t := by
  rcases s.emitAssign_cases S p x c with ⟨h, -⟩ | ⟨-, u, -, e⟩ | ⟨-, h, -⟩
  · exact absurd h ho
  · exact ⟨_, e⟩
  · rcases (s.emit S).assign?_cases p x with ⟨-, e⟩ | ⟨-, f, l, -, -, e⟩ | ⟨-, hn, -⟩
    · rw [e] at h
      cases h
    · rw [e] at h
      cases h
    · exact absurd hk hn

/-- The fetch writes the bit reader alone (40 R120). -/
theorem State.nextCode_eq (s : State) (w : Nat) :
    (s.nextCode w = (none, s.setReader (s.refill w s.reader)) ∧ (s.refill w s.reader).nbits.toNat < w) ∨
    (s.nextCode w = (some ((s.refill w s.reader).lowCode w), s.setReader ((s.refill w s.reader).dropBits w)) ∧
      w ≤ (s.refill w s.reader).nbits.toNat) := by
  unfold State.nextCode
  dsimp only
  split
  · exact .inl ⟨rfl, by assumption⟩
  · exact .inr ⟨rfl, by omega⟩

/-- The strings depend on `n`, `NEXT` and `DICT` alone. -/
theorem State.strWithin_congr {s t : State} (hn : t.n = s.n) (hx : t.next = s.next) (hd : t.dict = s.dict) (f : Nat) (c : Code) :
    t.strWithin f c = s.strWithin f c := by
  induction f generalizing c with
  | zero => rfl
  | succ f ih =>
    have hs : t.slot? c = s.slot? c := by simp only [State.slot?, State.assigned, hn, hx, hd]
    simp only [State.strWithin, hn, hs]
    split
    · rfl
    · cases s.slot? c with
      | none => rfl
      | some e => simp only [ih]

/-- A string read along enough links does not change with more. -/
theorem State.strWithin_mono (s : State) {f g : Nat} (h : f ≤ g) (c : Code) (S : List LzwSym) (hs : s.strWithin f c = some S) :
    s.strWithin g c = some S := by
  induction f generalizing g c S with
  | zero => simp [State.strWithin] at hs
  | succ f ih =>
    obtain ⟨g, rfl⟩ : ∃ k, g = k + 1 := ⟨g - 1, by omega⟩
    unfold State.strWithin at hs ⊢
    split at hs
    · rename_i hc
      rw [if_pos hc]
      exact hs
    · rename_i hc
      rw [if_neg hc]
      cases he : s.slot? c with
      | none => rw [he] at hs; simp at hs
      | some e =>
        rw [he] at hs
        simp only [Option.map_eq_some_iff] at hs ⊢
        obtain ⟨P, hP, rfl⟩ := hs
        exact ⟨P, ih (by omega) _ _ hP, rfl⟩

end Sys2Proof.Machine
end

