-- ==== Sys2Proof/Laws/PerInstr.lean ====
section
/-! SUPPORT. Statements made for every constructor of Instr, one lemma each. -/
namespace Sys2Proof.Laws.RoundTrip

/-- Decoding what the encoder writes for a well-formed instruction gives it back, with every operand (30 R93, R97, R98). -/
def Statement (i : Instr) : Prop := ∀ x : CodeCtx, x.Legal → i.wf x = true → decode x (encode x i) = .ok i

/-- The reserved codes fit 12 bits. -/
theorem pow_le {n : Nat} (h : n ≤ nMax) : 2 ^ n ≤ 2048 := (Nat.pow_le_pow_right (by decide) h).trans (by decide)

theorem clr : Statement .clr := by
  intro x h _
  have := pow_le h.2.1
  have hc : (BitVec.ofNat 12 (clearCode x.n)).toNat = clearCode x.n := by
    rw [BitVec.toNat_ofNat]
    exact Nat.mod_eq_of_lt (by simp only [clearCode]; omega)
  simp only [encode, decode, classify, hc, if_true]

theorem eoi : Statement .eoi := by
  intro x h _
  have := pow_le h.2.1
  have hc : (BitVec.ofNat 12 (eoiCode x.n)).toNat = eoiCode x.n := by
    rw [BitVec.toNat_ofNat]
    exact Nat.mod_eq_of_lt (by simp only [eoiCode, clearCode]; omega)
  have hne : eoiCode x.n ≠ clearCode x.n := by simp only [eoiCode]; omega
  simp only [encode, decode, classify, hc, hne, if_true, if_false]

theorem lit (k : Code) : Statement (.lit k) := by
  intro x _ hw
  simp only [Instr.wf, decide_eq_true_eq] at hw
  have h1 : k.toNat ≠ clearCode x.n := by omega
  have h2 : k.toNat ≠ eoiCode x.n := by simp only [eoiCode]; omega
  simp only [encode, decode, classify, if_neg h1, if_neg h2, if_pos hw]

theorem ref (c : Code) : Statement (.ref c) := by
  intro x _ hw
  simp only [Instr.wf, decide_eq_true_eq, Bool.and_eq_true] at hw
  have hf := hw.1.2
  simp only [firstFree] at hf
  have h1 : c.toNat ≠ clearCode x.n := by omega
  have h2 : c.toNat ≠ eoiCode x.n := by simp only [eoiCode]; omega
  have h3 : ¬c.toNat < clearCode x.n := by omega
  have h4 : x.prevValid = true ∧ firstFree x.n ≤ c.toNat ∧ c.toNat < x.next.toNat := ⟨hw.1.1, hw.1.2, hw.2⟩
  simp only [encode, decode, classify, if_neg h1, if_neg h2, if_neg h3, if_pos h4]

theorem kwk : Statement .kwk := by
  intro x h hw
  simp only [Instr.wf, decide_eq_true_eq, Bool.and_eq_true] at hw
  have hc : (BitVec.ofNat 12 x.next.toNat).toNat = x.next.toNat := by
    rw [BitVec.toNat_ofNat]
    exact Nat.mod_eq_of_lt hw.2
  have hf := h.2.2.1
  simp only [firstFree] at hf
  have h1 : x.next.toNat ≠ clearCode x.n := by omega
  have h2 : x.next.toNat ≠ eoiCode x.n := by simp only [eoiCode]; omega
  have h3 : ¬x.next.toNat < clearCode x.n := by omega
  simp only [encode, decode, classify, hc, if_neg h1, if_neg h2, if_neg h3, hw, true_and, if_true, Nat.lt_irrefl, and_false, if_false]

theorem unassigned (c : Code) : Statement (.unassigned c) := by
  intro x _ hw
  simp only [Instr.wf, decide_eq_true_eq, Bool.and_eq_true, Bool.or_eq_true, Bool.not_eq_true'] at hw
  have hf := hw.1
  simp only [firstFree] at hf
  have h1 : c.toNat ≠ clearCode x.n := by omega
  have h2 : c.toNat ≠ eoiCode x.n := by simp only [eoiCode]; omega
  have h3 : ¬c.toNat < clearCode x.n := by omega
  simp only [encode, decode, classify, if_neg h1, if_neg h2, if_neg h3]
  rcases hw.2 with hp | hp
  · simp [hp]
  · rw [if_neg (by omega), if_neg (by omega)]

theorem start : Statement .start := by
  intro x _ _
  rfl

theorem rst : Statement .rst := by
  intro x _ _
  rfl

end Sys2Proof.Laws.RoundTrip
end

