-- ==== Sys2Proof/Laws/Reader.lean ====
section
/-! SUPPORT. The bit reader (40): for each of its parts, once, everything it can do to the accumulator and the cursor. -/
namespace Sys2Proof.Machine

/-- The length of a concatenation in index order. -/
theorem flatMap_range_length {α} (f : Nat → List α) (n : Nat) :
    ((List.range n).flatMap f).length = ((List.range n).map fun i => (f i).length).sum := by
  simp [List.length_flatMap]

/-- Element `j` of piece `i` of a concatenation. -/
theorem flatMap_range_getElem? {α} (f : Nat → List α) (n i j : Nat) (hi : i < n) (hj : j < (f i).length) :
    ((List.range n).flatMap f)[((List.range i).map fun k => (f k).length).sum + j]? = (f i)[j]? := by
  obtain ⟨m, rfl⟩ : ∃ m, n = i + (m + 1) := ⟨n - i - 1, by omega⟩
  rw [List.range_add, List.flatMap_append]
  rw [List.getElem?_append_right (by rw [flatMap_range_length]; omega)]
  rw [flatMap_range_length, Nat.add_sub_cancel_left]
  rw [List.range_succ_eq_map]
  simp only [List.map_cons, List.flatMap_cons, Nat.add_zero]
  rw [List.getElem?_append_left hj]

/-- A payload is as long as its length byte says (20 R61). -/
theorem State.sbPayload_length (s : State) (i : Nat) : (s.sbPayload i).length = (s.sbLen i).toNat := by simp [State.sbPayload]

/-- `CONSUMED` as a function of the cursor (10 R33). -/
def State.consumedAt (s : State) (r : BitReader) : Nat := ((List.range r.sbIdx.toNat).map fun i => (s.sbLen i).toNat).sum + r.sbOff.toNat

/-- `T`, the total payload length (20 R62). -/
theorem State.inBytes_length (s : State) : s.inBytes.length = ((List.range s.sbCount.toNat).map fun i => (s.sbLen i).toNat).sum := by
  simp [State.inBytes, State.sbPayload_length]

/-- The byte at the cursor is `IN_BYTES[CONSUMED]` (40 R126). -/
theorem State.inBytes_getElem? (s : State) (r : BitReader) (h1 : r.sbIdx.toNat < s.sbCount.toNat) (h2 : r.sbOff.toNat < (s.sbLen r.sbIdx.toNat).toNat) :
    s.inBytes[State.consumedAt s r]? = some (s.sbByte r.sbIdx.toNat r.sbOff.toNat) := by
  have := flatMap_range_getElem? s.sbPayload s.sbCount.toNat r.sbIdx.toNat r.sbOff.toNat h1 (by rw [State.sbPayload_length]; exact h2)
  simp only [State.sbPayload_length] at this
  unfold State.inBytes State.consumedAt
  rw [this]; simp [State.sbPayload, h2]

/-- The invariant of the cursor (10 R32). -/
structure CursorOk (s : State) (r : BitReader) : Prop where
  idx_le : r.sbIdx.toNat ≤ s.sbCount.toNat
  off_le : r.sbIdx.toNat < s.sbCount.toNat → r.sbOff.toNat ≤ (s.sbLen r.sbIdx.toNat).toNat
  off_end : r.sbIdx.toNat = s.sbCount.toNat → r.sbOff = 0

/-- A longer sum of naturals is no smaller. -/
theorem sum_range_le (f : Nat → Nat) {a b : Nat} (h : a ≤ b) : ((List.range a).map f).sum ≤ ((List.range b).map f).sum := by
  obtain ⟨m, rfl⟩ := Nat.exists_eq_add_of_le h
  rw [List.range_add, List.map_append, List.sum_append]; omega

/-- One more term of the sum. -/
theorem sum_range_succ_eq (f : Nat → Nat) (a : Nat) : ((List.range (a+1)).map f).sum = ((List.range a).map f).sum + f a := by
  rw [List.range_succ]; simp

/-- The cursor is within the input. -/
theorem CursorOk.consumedAt_le {s r} (h : CursorOk s r) : State.consumedAt s r ≤ s.inBytes.length := by
  rw [State.inBytes_length]; unfold State.consumedAt
  rcases Nat.lt_or_ge r.sbIdx.toNat s.sbCount.toNat with hlt | hge
  · have := h.off_le hlt
    have h2 := sum_range_le (fun i => (s.sbLen i).toNat) (Nat.succ_le_of_lt hlt)
    rw [Nat.succ_eq_add_one, sum_range_succ_eq] at h2
    omega
  · have : r.sbIdx.toNat = s.sbCount.toNat := Nat.le_antisymm h.idx_le hge
    rw [this, h.off_end this]; simp

/-- `MoreBytes()` (40 R126): it keeps the bits and the number of bytes consumed, and leaves the cursor at an unread byte or at the
end. -/
theorem State.skipDone_spec (s : State) (f : Nat) (r : BitReader) (h : CursorOk s r) (hf : s.sbCount.toNat - r.sbIdx.toNat ≤ f) :
    let r' := s.skipDone f r
    CursorOk s r' ∧ r'.acc = r.acc ∧ r'.nbits = r.nbits ∧ State.consumedAt s r' = State.consumedAt s r ∧
      (r'.sbIdx.toNat < s.sbCount.toNat → r'.sbOff.toNat < (s.sbLen r'.sbIdx.toNat).toNat) := by
  induction f generalizing r with
  | zero =>
    refine ⟨h, rfl, rfl, rfl, fun hh => ?_⟩
    simp only [State.skipDone] at hh; omega
  | succ f ih =>
    unfold State.skipDone
    split
    · rename_i hc
      have hidx : (r.sbIdx + 1).toNat = r.sbIdx.toNat + 1 := by
        have := s.sbCount.isLt
        rw [BitVec.toNat_add]; exact Nat.mod_eq_of_lt (by simp; omega)
      have hcur : CursorOk s { r with sbIdx := r.sbIdx + 1, sbOff := 0 } :=
        ⟨by simp only [hidx]; omega, fun _ => by simp, fun _ => rfl⟩
      obtain ⟨a, b, c, d, e⟩ := ih _ hcur (by simp only [hidx]; omega)
      refine ⟨a, b, c, ?_, e⟩
      rw [d]; unfold State.consumedAt; simp only [hidx, sum_range_succ_eq, hc.2]; simp
    · rename_i hc
      refine ⟨h, rfl, rfl, rfl, fun hh => ?_⟩
      have h1 := h.off_le hh
      have h2 : r.sbOff ≠ s.sbLen r.sbIdx.toNat := fun e => hc ⟨hh, e⟩
      have h3 : r.sbOff.toNat ≠ (s.sbLen r.sbIdx.toNat).toNat := fun e => h2 (BitVec.eq_of_toNat_eq e)
      omega

/-- `ReaderInv` for a bit reader held apart from the state. -/
structure ReaderOk (s : State) (r : BitReader) : Prop where
  cur : CursorOk s r
  nbits_le : r.nbits.toNat ≤ 19
  acc_lt : r.acc.toNat < 2 ^ r.nbits.toNat
  nle : r.nbits.toNat ≤ 8 * State.consumedAt s r
  pending : ∀ i < r.nbits.toNat, r.acc.getLsbD i = streamBit s.inBytes (8 * State.consumedAt s r - r.nbits.toNat + i)

/-- The two forms of the invariant. -/
theorem readerInv_setReader_iff (s : State) (r : BitReader) : ReaderInv (s.setReader r) ↔ ReaderOk s r := by
  constructor
  · intro h
    exact ⟨⟨h.idx_le, h.off_le, h.off_end⟩, h.nbits_le, h.acc_lt, h.nbits_le_consumed, h.pending⟩
  · intro h
    exact ⟨h.nbits_le, h.acc_lt, h.cur.idx_le, h.cur.off_le, h.cur.off_end, h.nle, h.pending⟩

/-- The two forms of the invariant, at the state's own reader. -/
theorem readerInv_iff (s : State) : ReaderInv s ↔ ReaderOk s s.reader := readerInv_setReader_iff s s.reader

/-- One byte pulled (40 R121): the pending bits stay the bits of the stream at their positions. -/
theorem State.pullByte_spec (s : State) (r : BitReader) (h : ReaderOk s r) (hn : r.nbits.toNat ≤ 11) (h1 : r.sbIdx.toNat < s.sbCount.toNat)
    (h2 : r.sbOff.toNat < (s.sbLen r.sbIdx.toNat).toNat) :
    ReaderOk s (s.pullByte r) ∧ (s.pullByte r).nbits.toNat = r.nbits.toNat + 8 ∧ State.consumedAt s (s.pullByte r) = State.consumedAt s r + 1 := by
  have hb := (s.sbByte r.sbIdx.toNat r.sbOff.toNat).isLt
  have hl := (s.sbLen r.sbIdx.toNat).isLt
  have hnb : (s.pullByte r).nbits.toNat = r.nbits.toNat + 8 := by
    simp [State.pullByte]; omega
  have hoff : (s.pullByte r).sbOff.toNat = r.sbOff.toNat + 1 := by
    simp [State.pullByte]; omega
  have hidx : (s.pullByte r).sbIdx = r.sbIdx := rfl
  have hcons : State.consumedAt s (s.pullByte r) = State.consumedAt s r + 1 := by
    unfold State.consumedAt; rw [hoff, hidx]; omega
  have hbit : ∀ i, i < r.nbits.toNat + 8 → (s.pullByte r).acc.getLsbD i =
      if i < r.nbits.toNat then r.acc.getLsbD i else (s.sbByte r.sbIdx.toNat r.sbOff.toNat).getLsbD (i - r.nbits.toNat) := by
    intro i hi
    simp only [State.pullByte, BitVec.getLsbD_or, BitVec.getLsbD_shiftLeft, BitVec.getLsbD_setWidth]
    split
    · rename_i hlt
      simp [hlt]
    · rename_i hge
      have : r.acc.getLsbD i = false := by
        rw [BitVec.getLsbD, Nat.testBit_lt_two_pow]
        exact Nat.lt_of_lt_of_le h.acc_lt (Nat.pow_le_pow_right (by decide) (by omega))
      have h1 : i < 64 := by have := h.nbits_le; omega
      have h2 : i - r.nbits.toNat < 64 := by omega
      rw [this]; simp only [Bool.false_or]; simp [hge, h1, h2]
  refine ⟨⟨⟨?_, ?_, ?_⟩, ?_, ?_, ?_, ?_⟩, hnb, hcons⟩
  · exact h.cur.idx_le
  · intro _; rw [hoff]; exact h2
  · intro e; rw [hidx] at e; omega
  · omega
  · rw [hnb]
    have h64 : r.acc.toNat < 2 ^ (r.nbits.toNat + 8) := Nat.lt_of_lt_of_le h.acc_lt (Nat.pow_le_pow_right (by decide) (by omega))
    simp only [State.pullByte, BitVec.toNat_or, BitVec.toNat_shiftLeft, BitVec.toNat_setWidth]
    apply Nat.or_lt_two_pow h64
    refine Nat.lt_of_le_of_lt (Nat.mod_le _ _) ?_
    rw [Nat.shiftLeft_eq, Nat.mod_eq_of_lt (by omega), Nat.pow_add, Nat.mul_comm]
    exact Nat.mul_lt_mul_of_pos_left hb (Nat.two_pow_pos _)
  · rw [hnb, hcons]; have := h.nle; omega
  · intro i hi
    rw [hnb] at hi
    rw [hbit i hi, hnb, hcons]
    have hle := h.nle
    have e : 8 * (State.consumedAt s r + 1) - (r.nbits.toNat + 8) = 8 * State.consumedAt s r - r.nbits.toNat := by omega
    rw [e]
    split
    · exact h.pending i (by assumption)
    · rename_i hge
      unfold streamBit
      have e1 : (8 * State.consumedAt s r - r.nbits.toNat + i) / 8 = State.consumedAt s r := by omega
      have e2 : (8 * State.consumedAt s r - r.nbits.toNat + i) % 8 = i - r.nbits.toNat := by omega
      rw [e1, e2, State.inBytes_getElem? s r h1 h2]

/-- The invariant under a move of the cursor that consumes nothing. -/
theorem ReaderOk.withCursor {s r r'} (h : ReaderOk s r) (hc : CursorOk s r') (e1 : r'.acc = r.acc) (e2 : r'.nbits = r.nbits) (e3 : State.consumedAt s r' = State.consumedAt s r) : ReaderOk s r' :=
  ⟨hc, by rw [e2]; exact h.nbits_le, by rw [e1, e2]; exact h.acc_lt, by rw [e2, e3]; exact h.nle, by rw [e1, e2, e3]; exact h.pending⟩

/-- `Refill(w)` (40 R121): everything it can do. -/
theorem State.refillWithin_spec (s : State) (w f : Nat) (hw : w ≤ 12) (r : BitReader) (h : ReaderOk s r) (hf : w ≤ r.nbits.toNat + 8 * f) :
    let r' := s.refillWithin w f r
    ReaderOk s r' ∧ 8 * State.consumedAt s r' - r'.nbits.toNat = 8 * State.consumedAt s r - r.nbits.toNat ∧
      State.consumedAt s r ≤ State.consumedAt s r' ∧ State.consumedAt s r' ≤ State.consumedAt s r + f ∧ (w ≤ r.nbits.toNat → State.consumedAt s r' = State.consumedAt s r) ∧
      (State.consumedAt s r' ≠ State.consumedAt s r → r'.nbits.toNat < w + 8) ∧
      (r'.nbits.toNat < w → State.consumedAt s r' = s.inBytes.length ∧ r'.sbIdx.toNat = s.sbCount.toNat) := by
  induction f generalizing r with
  | zero => 
    refine ⟨h, rfl, by simp [State.refillWithin], by simp [State.refillWithin], fun _ => rfl, fun e => absurd rfl e, fun e => ?_⟩
    simp only [State.refillWithin] at e; omega
  | succ f ih =>
    unfold State.refillWithin
    split
    · rename_i hlt
      have hsk := State.skipDone_spec s (s.sbCount.toNat - r.sbIdx.toNat) r h.cur (le_refl _)
      obtain ⟨a, b, c, d, e⟩ := hsk
      have hm : s.skipDone (s.sbCount.toNat - r.sbIdx.toNat) r = s.moreBytes r := rfl
      simp only [hm] at a b c d e
      have hRI : ReaderOk s (s.moreBytes r) := h.withCursor a b c d
      dsimp only
      split
      · rename_i hmore
        obtain ⟨p1, p2, p3⟩ := State.pullByte_spec s _ hRI (by rw [c]; omega) hmore (e hmore)
        obtain ⟨q1, q2, q3, q4, q5, q6, q7⟩ := ih _ p1 (by rw [p2, c]; omega)
        refine ⟨q1, ?_, by omega, by omega, fun hh => by omega, fun _ => ?_, q7⟩
        · rw [q2, p2, p3, c, d]; omega
        · by_cases hcc : State.consumedAt s (s.refillWithin w f (s.pullByte (s.moreBytes r))) = State.consumedAt s (s.pullByte (s.moreBytes r))
          · -- either nothing pulled further
            have : 8 * State.consumedAt s (s.refillWithin w f (s.pullByte (s.moreBytes r))) - (s.refillWithin w f (s.pullByte (s.moreBytes r))).nbits.toNat = 8 * State.consumedAt s (s.pullByte (s.moreBytes r)) - (s.pullByte (s.moreBytes r)).nbits.toNat := q2
            have l1 := q1.nle
            have l2 := p1.nle
            rw [c] at p2
            omega
          · exact q6 hcc
      · rename_i hno
        have hidx : (s.moreBytes r).sbIdx.toNat = s.sbCount.toNat := Nat.le_antisymm a.idx_le (by omega)
        have hlen : State.consumedAt s (s.moreBytes r) = s.inBytes.length := by
          rw [State.inBytes_length]; unfold State.consumedAt; rw [hidx, a.off_end hidx]; simp
        refine ⟨hRI, by rw [c, d], by omega, by omega, fun hh => by omega, fun hh => absurd d hh, fun _ => ⟨hlen, hidx⟩⟩
    · rename_i hge
      refine ⟨h, rfl, le_refl _, by omega, fun _ => rfl, fun hh => absurd rfl hh, fun hh => absurd hh hge⟩

/-- Low bits that agree with the stream are the code there (20 R64). -/
theorem mod_two_pow_eq_streamBits (bytes : List Byte) (acc p w : Nat) (h : ∀ i < w, acc.testBit i = streamBit bytes (p + i)) :
    acc % 2 ^ w = streamBits bytes p w := by
  induction w with
  | zero => simp [streamBits, Nat.mod_one]
  | succ w ih =>
    rw [streamBits, ← ih fun i hi => h i (by omega), ← h w (by omega), Nat.mod_pow_succ, Nat.testBit_eq_decide_div_mod_eq]
    rcases Nat.mod_two_eq_zero_or_one (acc / 2 ^ w) with e | e <;> simp [e]

/-- Extraction of `w` bits (40 R122). -/
theorem BitReader.dropBits_spec (s : State) (w : Nat) (hw : w ≤ 12) (r : BitReader) (h : ReaderOk s r) (hn : w ≤ r.nbits.toNat) :
    ReaderOk s (r.dropBits w) ∧ (r.dropBits w).nbits.toNat = r.nbits.toNat - w ∧ State.consumedAt s (r.dropBits w) = State.consumedAt s r := by
  have hnb : (r.dropBits w).nbits.toNat = r.nbits.toNat - w := by
    have := r.nbits.isLt
    simp only [BitReader.dropBits, BitVec.toNat_sub, BitVec.toNat_ofNat]
    rw [Nat.mod_eq_of_lt (a := w) (by omega)]
    omega
  have hle := h.nle
  have h19 := h.nbits_le
  refine ⟨⟨⟨h.cur.idx_le, h.cur.off_le, h.cur.off_end⟩, by omega, ?_, ?_, ?_⟩, hnb, rfl⟩
  · rw [hnb]
    simp only [BitReader.dropBits, BitVec.toNat_ushiftRight, Nat.shiftRight_eq_div_pow]
    rw [Nat.div_lt_iff_lt_mul (Nat.two_pow_pos _), ← Nat.pow_add, Nat.sub_add_cancel hn]
    exact h.acc_lt
  · show _ ≤ 8 * State.consumedAt s r; omega
  · intro i hi
    rw [hnb] at hi ⊢
    have : State.consumedAt s (r.dropBits w) = State.consumedAt s r := rfl
    rw [this]
    simp only [BitReader.dropBits, BitVec.getLsbD_ushiftRight]
    rw [h.pending (w + i) (by omega)]
    congr 1; omega

end Sys2Proof.Machine
end

