-- ==== Sys2Proof/Laws/Step.lean ====
section
/-! SUPPORT. What a step can do, said once: whose turn it is, what the engine runs, and what the fetch and the final check leave. -/
namespace Sys2Proof.Machine

/-- The turns a step can take (log 7). -/
theorem step_cases (s : State) :
    (s.agenda = [] ∧ step s = engineStep s) ∨
    (∃ rest, s.agenda = .engine :: rest ∧ step s = engineStep (s.setAgenda rest)) ∨
    (∃ m rest, s.agenda = .host m :: rest ∧ step s = hostStep m (s.setAgenda rest)) := by
  unfold step
  cases h : s.agenda with
  | nil => exact .inl ⟨rfl, rfl⟩
  | cons t rest =>
    cases t with
    | engine => exact .inr (.inl ⟨rest, rfl, rfl⟩)
    | host m => exact .inr (.inr ⟨m, rest, rfl, rfl⟩)

/-- The engine's three cases: no step, an exhausted fetch, a fetched code (40 R130, R131). -/
theorem engineStep_cases (s : State) :
    (s.state ≠ .run ∧ engineStep s = .next s) ∨
    (s.state = .run ∧ (s.nextCode s.width.toNat).1 = none ∧
      engineStep s = .next ((s.nextCode s.width.toNat).2.raise .trunc)) ∨
    (s.state = .run ∧ ∃ c, (s.nextCode s.width.toNat).1 = some c ∧
      engineStep s = exec (classify (s.nextCode s.width.toNat).2.ctx c) (s.nextCode s.width.toNat).2) := by
  unfold engineStep
  by_cases hs : s.state = .run
  · rw [if_pos hs]
    cases h : s.nextCode s.width.toNat with
    | mk r u =>
      cases r with
      | none => exact .inr (.inl ⟨hs, rfl, rfl⟩)
      | some c => exact .inr (.inr ⟨hs, c, rfl, rfl⟩)
  · exact .inl ⟨hs, if_neg hs⟩

/-- A fetched code selects one of the six codes, never a host command (30 R93). -/
theorem classify_cases (x : CodeCtx) (c : Code) :
    classify x c = .clr ∨ classify x c = .eoi ∨ classify x c = .kwk ∨
      classify x c = .lit c ∨ classify x c = .ref c ∨ classify x c = .unassigned c := by
  unfold classify
  repeat' split
  all_goals simp

/-- A word of `CTRL` that is a command is START (30 R97). -/
theorem decodeCtrl_ok {v : Word} {i : Instr} (h : decodeCtrl v = .ok i) : i = .start := by
  unfold decodeCtrl at h
  split at h
  · cases h
    rfl
  · cases h

/-- The final check of EOI (43 R172). -/
theorem State.finalCheck_cases (s : State) :
    (s.outCount = s.expect ∧ s.finalCheck = s.finish) ∨ (s.outCount ≠ s.expect ∧ s.finalCheck = s.raise .count) := by
  unfold State.finalCheck
  split
  · exact .inl ⟨by assumption, rfl⟩
  · exact .inr ⟨by assumption, rfl⟩

/-- The fetch leaves everything but the bit reader (40 R120). -/
theorem State.nextCode_frame (s : State) (w : Nat) :
    SameInput s (s.nextCode w).2 ∧ SameSurroundings s (s.nextCode w).2 ∧ SameDictionary s (s.nextCode w).2 ∧
      SameOutput s (s.nextCode w).2 ∧ (s.nextCode w).2.state = s.state ∧ (s.nextCode w).2.err = s.err := by
  rcases s.nextCode_eq w with ⟨e, -⟩ | ⟨e, -⟩ <;> rw [e] <;>
    exact ⟨⟨rfl, rfl, rfl, rfl, rfl, rfl⟩, ⟨rfl, rfl, rfl, rfl⟩, ⟨rfl, rfl, rfl, rfl⟩, ⟨rfl, rfl⟩, rfl, rfl⟩

/-- A raise writes `STATE` and `ERR` alone (60 R200). -/
theorem State.raise_frame (s : State) (e : ErrCode) : SameButStatus s (s.raise e) :=
  ⟨⟨rfl, rfl, rfl, rfl, rfl, rfl⟩, ⟨rfl, rfl, rfl, rfl⟩, ⟨rfl, rfl, rfl, rfl⟩, ⟨rfl, rfl⟩, rfl⟩

/-- A host's move in `RUN` other than a reset, within the store, completes and changes at most the word returned and the count of
free values drawn: writes are ignored (44 R182 to R184), reads have no side effect (R183 to R185). -/
theorem hostStep_in_run {m : HostMove} {s : State} (hs : s.state = .run) (hm : m ≠ .reset) (hi : m.inStore s) :
    ∃ (v : Word) (n : Nat), hostStep m s = .next { s.answer v with freeCtr := n } := by
  cases m with
  | reset => exact absurd rfl hm
  | regRead r => exact ⟨s.regRead r, s.freeCtr, rfl⟩
  | regWrite r v =>
    refine ⟨s.hostData, s.freeCtr, ?_⟩
    simp only [hostStep, hostRegWrite, if_pos hs]
    split
    · split
      · rename_i i h
        rw [decodeCtrl_ok h]
        simp only [exec, execStart, if_pos hs]
        rfl
      · rfl
    · rfl
  | inRead a =>
    refine ⟨(s.inByte a).setWidth 32, s.freeCtr, ?_⟩
    simp only [hostStep, hostInRead]
    exact if_pos hi
  | inWrite a b =>
    refine ⟨s.hostData, s.freeCtr, ?_⟩
    simp only [hostStep, hostInWrite, if_pos hs]
    exact if_pos hi
  | outRead k =>
    simp only [hostStep, hostOutRead]
    split
    · rename_i x _
      exact ⟨x.setWidth 32, s.freeCtr, rfl⟩
    · exact ⟨Config.freeOutRead s.freeCtr, s.freeCtr + 1, rfl⟩

/-- The same dictionary engine and the same `MCS` track the same (30 R99). -/
theorem State.track_congr {s t : State} (hm : t.mcs = s.mcs) (hd : SameDictionary s t) : t.track = s.track := by
  simp only [State.track, State.n, State.prevValid, hm, hd.width, hd.next, hd.prev]

/-- CLR leaves what the packer starts with (30 R99, 41 R141). -/
theorem State.clearDict_track (s : State) (h2 : s.n ≤ nMax) : s.clearDict.track = Track.start s.n := by
  have hp : 2 ^ s.n ≤ 2 ^ 11 := Nat.pow_le_pow_right (by decide) h2
  have hw : s.clearDict.width.toNat = s.n + 1 := by
    simp only [State.clearDict_width, BitVec.toNat_ofNat]
    exact Nat.mod_eq_of_lt (by simp only [nMax] at h2; omega)
  have hx : s.clearDict.next.toNat = firstFree s.n := by
    simp only [State.clearDict_next, BitVec.toNat_ofNat]
    exact Nat.mod_eq_of_lt (by simp only [firstFree, clearCode]; omega)
  simp only [State.track, Track.start, hw, hx]
  rfl

/-- In `DONE` the entry of the result below `OUT_COUNT` is the index emitted there (10 R47, 43 R173). -/
theorem State.resultEntry_emitted {s : State} {k : Nat} {x : LzwSym} (hs : s.state = .done) (hk : k < s.outCount.toNat)
    (hx : s.out.read? k = some x) : s.resultEntry k = x := by
  have h : ¬(s.state = .run ∨ s.outCount.toNat ≤ k) := by
    rintro (h | h)
    · rw [hs] at h
      cases h
    · omega
  simp only [State.resultEntry, State.outEntry?, if_neg h, hx, Option.getD_some]

@[simp] theorem hostTurns_nil : hostTurns [] = 0 := rfl

@[simp] theorem hostTurns_engine (ts : List Turn) : hostTurns (.engine :: ts) = hostTurns ts := rfl

@[simp] theorem hostTurns_host (m : HostMove) (ts : List Turn) : hostTurns (.host m :: ts) = hostTurns ts + 1 := by
  simp [hostTurns]

end Sys2Proof.Machine
end

