-- ==== Sys2Proof/Tests/Slice0.lean ====
section
/-! SUPPORT. The model's own tests, each about one step or less; expected values are the spec's own examples and vectors, or
computed by hand from its rules. After them, for every statement with hypotheses, a state and operands that meet them. -/
namespace Sys2Proof.Tests
-- One proof at a time: proofs by kernel evaluation elaborated side by side wait for one another, each in a thread of its own.
set_option Elab.async false
open Sys2Proof Sys2Proof.Machine

/-! ## Builders -/

/-- The state an answer leaves, if it is a next state. -/
def after : Answer → Option State
  | .next s => some s
  | _ => none

/-- An input store: the sub-blocks at a pitch of 256 bytes, each with its length byte (20 R61). -/
def store (blocks : List (List Byte)) : Memory Byte :=
  blocks.zipIdx.flatMap fun b =>
    (256 * b.2, BitVec.ofNat 8 b.1.length) :: b.1.zipIdx.map fun x => (256 * b.2 + 1 + x.2, x.1)

/-- A running engine as START leaves it: `n`, `EXPECT = w`, the sub-blocks (44 R181). -/
def begun (n w : Nat) (blocks : List (List Byte)) : State :=
  { State.reset with
    state := .run, mcs := BitVec.ofNat 8 n, imgW := BitVec.ofNat 16 w, imgH := 1
    sbCount := BitVec.ofNat 32 blocks.length, inMem := store blocks
    width := BitVec.ofNat 4 (n + 1), next := BitVec.ofNat 13 (2 ^ n + 2) }

/-- Slot 6 holding `[3, 0]`, as in the example of 42 R151. -/
def slot30 : Memory DictEntry := [(6, ⟨3, 0, 3, 2⟩)]

/-- `n = 2`, one slot assigned, two indices out (3 and 0), predecessor `p`. -/
def grown (p : Code) (w : Nat) (blocks : List (List Byte)) : State :=
  { begun 2 w blocks with next := 7, dict := slot30, prev := some p, outCount := 2, out := [(0, 3), (1, 0)] }

/-- The same with the dictionary full. -/
def full (p : Code) (w : Nat) : State := { grown p w [] with next := 4096, width := 12 }

/-! ## Well-formedness: one ill-formed term for each check, which the check refuses, beside a well-formed one -/

/-- 30 R93 row 3: `c < CLEAR`. -/
theorem test_wf_lit : (Instr.lit 3).wf ⟨2, 6, true⟩ = true ∧ (Instr.lit 4).wf ⟨2, 6, true⟩ = false := by decide

/-- Row 4: a predecessor, `FIRST_FREE ≤ c`, `c < NEXT`. -/
theorem test_wf_ref : (Instr.ref 6).wf ⟨2, 7, true⟩ = true ∧ (Instr.ref 6).wf ⟨2, 7, false⟩ = false ∧
    (Instr.ref 5).wf ⟨2, 7, true⟩ = false ∧ (Instr.ref 7).wf ⟨2, 7, true⟩ = false := by decide

/-- Row 5: a predecessor, `NEXT < 4096`. -/
theorem test_wf_kwk : Instr.kwk.wf ⟨2, 4095, true⟩ = true ∧ Instr.kwk.wf ⟨2, 6, false⟩ = false ∧
    Instr.kwk.wf ⟨2, 4096, true⟩ = false := by decide

/-- Row 6: `FIRST_FREE ≤ c`, and no predecessor or `c > NEXT`. -/
theorem test_wf_unassigned : (Instr.unassigned 6).wf ⟨2, 6, false⟩ = true ∧ (Instr.unassigned 5).wf ⟨2, 6, false⟩ = false ∧
    (Instr.unassigned 7).wf ⟨2, 7, true⟩ = false ∧ (Instr.unassigned 8).wf ⟨2, 7, true⟩ = true := by decide

/-- The contexts: `n` in 1..11, `FIRST_FREE ≤ NEXT ≤ 4096`, nothing assigned without a predecessor. -/
theorem test_legal : CodeCtx.Legal ⟨1, 4, false⟩ ∧ CodeCtx.Legal ⟨11, 4096, true⟩ ∧ ¬CodeCtx.Legal ⟨0, 3, true⟩ ∧
    ¬CodeCtx.Legal ⟨12, 4096, true⟩ ∧ ¬CodeCtx.Legal ⟨2, 5, true⟩ ∧ ¬CodeCtx.Legal ⟨2, 4097, true⟩ ∧
    ¬CodeCtx.Legal ⟨2, 7, false⟩ := by decide

/-- The widths (40 R125). -/
theorem test_width : legalWidth 2 ∧ legalWidth 12 ∧ ¬legalWidth 1 ∧ ¬legalWidth 13 := by decide

/-! ## Decoding: words written out bit by bit from the spec -/

/-- 30 R101 (a): `44 01` at width 3, `n = 2`: CLR, LIT 0, EOI; read the other way round it would be 2, 1, 0 (d). -/
theorem test_decode_clr_lit_eoi : decodeStream ⟨2, 6, false⟩ 3 [0x44, 0x01] 0 = .ok (.clr, 3) ∧
    decodeStream ⟨2, 6, false⟩ 3 [0x44, 0x01] 3 = .ok (.lit 0, 6) ∧
    decodeStream ⟨2, 6, true⟩ 3 [0x44, 0x01] 6 = .ok (.eoi, 9) := by decide

/-- 30 R101 (b): `8C 2D`: bits 6 to 8 hold KWK (6 = NEXT), bits 9 to 11 REF 6, bits 12 to 15 LIT 2 at width 4. -/
theorem test_decode_kwk_ref : decodeStream ⟨2, 6, true⟩ 3 [0x8C, 0x2D] 6 = .ok (.kwk, 9) ∧
    decodeStream ⟨2, 7, true⟩ 3 [0x8C, 0x2D] 9 = .ok (.ref 6, 12) ∧
    decodeStream ⟨2, 8, true⟩ 4 [0x8C, 0x2D] 12 = .ok (.lit 2, 16) := by decide

/-- 95 T-E6c: the bits `111` at width 3 with `NEXT = 6`; and 6 with no predecessor (T-E6d). -/
theorem test_decode_unassigned : decodeStream ⟨2, 6, true⟩ 3 [0xC4, 0x01] 6 = .ok (.unassigned 7, 9) ∧
    classify ⟨2, 6, false⟩ 6 = .unassigned 6 := by decide

/-- 30 R101 (c): 12-bit codes, `n = 11`: 2048, 2047, 2050, 2049 in `00 F8 7F 02 18 80`. -/
theorem test_decode_twelve_bits : decodeStream ⟨11, 2050, false⟩ 12 [0x00, 0xF8, 0x7F, 0x02, 0x18, 0x80] 0 = .ok (.clr, 12) ∧
    decodeStream ⟨11, 2050, true⟩ 12 [0x00, 0xF8, 0x7F, 0x02, 0x18, 0x80] 24 = .ok (.kwk, 36) ∧
    decodeStream ⟨11, 2051, true⟩ 12 [0x00, 0xF8, 0x7F, 0x02, 0x18, 0x80] 36 = .ok (.eoi, 48) := by decide

/-- 30 R96: the pattern of CLR for `n = 1` at width 2, and of EOI at width 12 (bits 0 and 1 set). -/
theorem test_decode_n1 : decodeStream ⟨1, 4, false⟩ 2 [0x02] 0 = .ok (.clr, 2) ∧
    decodeStream ⟨1, 4096, true⟩ 12 [0x03, 0x00] 0 = .ok (.eoi, 12) := by decide

/-- What decoding rejects, by name: too few bits (40 R123), a width outside 2..12 (R125), a word that is no command (30 R97). -/
theorem test_decode_rejects : decodeStream ⟨2, 6, false⟩ 3 [0x44] 6 = .error .exhausted ∧
    decodeStream ⟨2, 6, false⟩ 13 [0x44, 0x01] 0 = .error .badWidth ∧ decodeCtrl 0xFFFFFFFE#32 = .error .notACommand := by decide

/-- 30 R97, 95 T-H7: START is bit 0 of `CTRL`, whatever the other bits; RST is the reset input. -/
theorem test_decode_host : decodeTableWord 8 1 = some .start ∧ decodeTableWord 32 0xFFFFFFFF = some .start ∧
    decodeTableWord 8 0 = none ∧ decode ⟨0, 0, false⟩ .resetInput = .ok .rst := by decide

/-- 30 R101 (a), (b): the packer's bytes. -/
theorem test_pack : pack 2 [4, 0, 5] = some [0x44, 0x01] ∧ pack 2 [4, 1, 6, 6, 2] = some [0x8C, 0x2D] ∧
    pack 2 [8] = none := by decide

/-! ## The bit reader -/

/-- 40 R120's example, its first request: 4 from `8C 2D`, one byte consumed, 5 bits pending. -/
theorem test_next_code : (((begun 2 1 [[0x8C, 0x2D]]).nextCode 3).1 = some 4) ∧
    ((begun 2 1 [[0x8C, 0x2D]]).nextCode 3).2.bitpos = 3 ∧ ((begun 2 1 [[0x8C, 0x2D]]).nextCode 3).2.consumed = 1 := by
  decide +kernel

/-- 40 R126: a 12-bit code over a sub-block boundary and two empty sub-blocks; `0x8FF` from `FF` and `x8`. -/
theorem test_next_code_boundary : ((begun 2 1 [[], [0xFF], [], [0x38]]).nextCode 12).1 = some 0x8FF := by decide +kernel

/-! ## The instructions -/

/-- 41 R141's example: `NEXT = 8`, `WIDTH = 4`, a predecessor: CLR gives 6, 3, none. -/
theorem test_clr : (after (exec .clr { grown 0 9 [] with next := 8, width := 4 })).map
    (fun t => (t.next, t.width, t.prevValid, t.dict == slot30)) = some (6, 3, false, true) := by decide +kernel

/-- 41 R142's example: `OUT_COUNT = EXPECT`: DONE; one index short: `E_COUNT` (95 T-E6e). -/
theorem test_eoi : (after (exec .eoi (grown 0 2 []))).map (·.state) = some .done ∧
    (after (exec .eoi (grown 0 3 []))).map (·.err) = some .count := by decide +kernel

/-- 95 T-E1t: with `TAIL_CHECK` the fill bits after EOI form a code. -/
theorem test_eoi_tail : (after (exec .eoi { begun 2 0 [[0x00]] with cfg := ⟨1, 1, true⟩ })).map (·.err) = some .afterEoi := by
  decide +kernel

/-- 42 R150's example: the first LIT after a Clear. -/
theorem test_lit_first : (after (exec (.lit 1) (begun 2 1 []))).map (fun t => (t.out.read? 0, t.outCount, t.prev, t.next)) =
    some (some 1, 1, some 1, 6) := by decide +kernel

/-- 95 T-E7 step 3, the corner of `n = 1`: LIT 1 after 0 binds slot 4 to `[0, 1]` and the width becomes 3. -/
theorem test_lit_second : (after (exec (.lit 1) { begun 1 4 [] with prev := some 0, outCount := 1, out := [(0, 0)] })).map
    (fun t => (t.dict.read? 4, t.next, t.width)) = some (some ⟨0, 1, 0, 2⟩, 5, 3) := by decide +kernel

/-- 42 R151's example: REF 6 with `DICT[6] = [3, 0]`, `PREV = 0`, `NEXT = 7`. -/
theorem test_ref : (after (exec (.ref 6) (grown 0 9 []))).map
    (fun t => ([t.out.read? 2, t.out.read? 3, t.prev], t.outCount, t.dict.read? 7, t.next, t.width)) =
    some ([some 3, some 0, some 6], 4, some ⟨0, 3, 0, 2⟩, 8, 4) := by decide +kernel

/-- 42 R156: with the dictionary full REF still outputs and becomes the predecessor; nothing is assigned. -/
theorem test_ref_full : (after (exec (.ref 6) (full 0 9))).map (fun t => (t.outCount, t.next, t.width, t.prev, t.dict == slot30)) =
    some (4, 4096, 12, some 6, true) := by decide +kernel

/-- 42 R152's example, after `CLR, LIT 1`: emits 1, 1, binds slot 6 to `[1, 1]`. -/
theorem test_kwk : (after (exec .kwk { begun 2 3 [] with prev := some 1, outCount := 1, out := [(0, 1)] })).map
    (fun t => (t.out.read? 1, t.out.read? 2, t.dict.read? 6, t.next, t.prev)) =
    some (some 1, some 1, some ⟨1, 1, 1, 2⟩, 7, some 6) := by decide +kernel

/-- 43 R171: a string that does not fit wholly writes nothing of it (3 indices where 2 fit). -/
theorem test_kwk_overflow : (after (exec .kwk (grown 6 4 []))).map (fun t => (t.err, t.outCount, t.out.read? 2, t.next)) =
    some (.count, 2, none, 7) := by decide +kernel

/-- 42 R153's example: 7 after `CLR, LIT 0`. -/
theorem test_unassigned : (after (exec (.unassigned 7) (grown 0 9 []))).map (fun t => (t.state, t.err, t.outCount, t.next)) =
    some (.error, .unassigned, 2, 7) := by decide +kernel

/-- 44 R181's example. -/
theorem test_start : (after (exec .start { State.reset with mcs := 2, imgW := 10, imgH := 10, sbCount := 1 })).map
    (fun t => (t.state, t.width, t.next, t.expect)) = some (.run, 3, 6, 100) := by decide +kernel

/-- 95 T-C1: `OUT_CAP = 99` refuses the same run, 100 takes it. -/
theorem test_start_config : (after (exec .start { State.reset with mcs := 2, imgW := 10, imgH := 10, cfg := ⟨1, 99, false⟩ })).map
    (·.status) = some 0x53 ∧ (after (exec .start { State.reset with mcs := 2, imgW := 10, imgH := 10, cfg := ⟨1, 100, false⟩ })).map
    (·.status) = some 0x01 := by decide +kernel

/-- 95 T-H1. -/
theorem test_rst : (after (exec .rst { grown 0 10 [] with state := .error, err := .unassigned, outCount := 37 })).map
    (fun t => (t.status, t.mcs, t.imgW, t.expect, t.outCount, t.sbCount)) = some (0, 0, 0, 0, 0, 0) := by decide +kernel

/-! ## The step -/

/-- 40 R131's example: the step fetches 4, executes CLR, leaves `BITPOS = 3`. -/
theorem test_step : (after (step (begun 2 1 [[0x44, 0x01]]))).map (fun t => (t.bitpos, t.state, t.prevValid)) =
    some (3, .run, false) := by decide +kernel

/-- 95 T-E6b: empty input. -/
theorem test_step_trunc : (after (step (begun 2 1 []))).map (fun t => (t.status, t.bitpos)) = some (0x13, 0) := by decide +kernel

/-- A table word runs as the first instruction after reset: START with `MCS = 0` is refused (44 R181). -/
theorem test_fetch_word : (after (step (State.reset.withFetchWord 8 1))).map (·.status) = some 0x53 := by decide +kernel

/-- 95 T-H3: the length byte of slot 1 is byte 256 of `IN`; 95 T-H4: in `RUN` the write is dropped. -/
theorem test_in_write : (after (step { State.reset with agenda := [.host (.inWrite 256 1)] })).map (·.sbLen 1) = some 1 ∧
    (after (step { begun 2 1 [[0x44]] with agenda := [.host (.inWrite 1 0xFF)] })).map (·.sbByte 0 0) = some 0x44 := by
  decide +kernel

/-- 43 R173: a read of an emitted index, in `DONE`. -/
theorem test_out_read : (after (step { grown 0 2 [] with state := .done, agenda := [.host (.outRead 0)] })).map (·.hostData) =
    some 3 := by decide +kernel

/-- 10 R47: the result of a finished run, and after the host has declared the image one index shorter; of an error. -/
theorem test_result : ({ grown 0 2 [] with state := .done } : State).result = .ok [3, 0] ∧
    ({ grown 0 1 [] with state := .done } : State).result = .ok [3] ∧
    ({ grown 0 2 [] with state := .error, err := .trunc } : State).result = .err .trunc := by decide +kernel

/-- 95 T-H7: `RegWrite(2, v)` keeps the low 8 bits; register 8 does not exist. -/
theorem test_reg_write : (after (step { State.reset with agenda := [.host (.regWrite 2 0x102)] })).map (·.mcs) = some 2 ∧
    (after (step { State.reset with agenda := [.host (.regWrite 8 5)] })).map (·.mcs) = some 0 := by decide +kernel

/-! ## The invariants of the builders' states -/

/-- A next state with a decidable property. -/
theorem exists_next {a : Answer} {P : State → Prop} [DecidablePred P] (h : (after a).any (fun t => decide (P t)) = true) :
    ∃ t, a = .next t ∧ P t := by
  cases a with
  | next t => exact ⟨t, rfl, by simpa [after] using h⟩
  | fault r => simp [after] at h
  | refused r => simp [after] at h

/-- The clauses of `ReaderInv`, as one condition that can be evaluated. -/
abbrev ReaderCheck (s : State) : Prop :=
  s.reader.nbits.toNat ≤ 19 ∧ s.reader.acc.toNat < 2 ^ s.reader.nbits.toNat ∧ s.reader.sbIdx.toNat ≤ s.sbCount.toNat ∧
    (s.reader.sbIdx.toNat < s.sbCount.toNat → s.reader.sbOff.toNat ≤ (s.sbLen s.reader.sbIdx.toNat).toNat) ∧
    (s.reader.sbIdx.toNat = s.sbCount.toNat → s.reader.sbOff = 0) ∧ s.reader.nbits.toNat ≤ 8 * s.consumed ∧
    ∀ i < s.reader.nbits.toNat, s.reader.acc.getLsbD i = streamBit s.inBytes (s.bitpos + i)

/-- `ReaderInv` from the check. -/
theorem readerInv_of {s : State} (h : ReaderCheck s) : ReaderInv s :=
  ⟨h.1, h.2.1, h.2.2.1, h.2.2.2.1, h.2.2.2.2.1, h.2.2.2.2.2.1, h.2.2.2.2.2.2⟩

/-- No code is assigned. -/
theorem dictInv_of_none {s : State} (h : s.next.toNat = firstFree s.n) : DictInv s := by
  intro c hc
  exact absurd hc.2 (by rw [h]; exact Nat.not_lt.mpr hc.1)

/-- The one assigned code is 6, with the string `[3, 0]`. -/
theorem dictInv_of_slot30 {s : State} (h1 : s.mcs = 2) (h2 : s.next = 7) (h3 : s.dict = slot30) : DictInv s := by
  have hn : s.n = 2 := by simp [State.n, h1]
  intro c hc
  have h : c.toNat = 6 := by
    have := hc.1
    have := hc.2
    simp only [hn, h2, firstFree, clearCode] at *
    simp at *
    omega
  have h4 : (3 : Code).toNat < clearCode s.n := by rw [hn]; decide
  refine ⟨⟨3, 0, 3, 2⟩, by rw [h, h3]; rfl, ?_⟩
  exact ⟨by rw [h]; decide, .inl h4, by rw [hn]; decide, by rw [hn]; decide, if_pos h4, ⟨1, if_pos h4, by decide⟩, by decide,
    by rw [h, hn]; decide⟩

/-- The clauses of `RunInv` but for the dictionary and the reader, as one condition that can be evaluated. -/
abbrev RunCheck (s : State) : Prop :=
  nMin ≤ s.n ∧ s.n ≤ nMax ∧ s.expect.toNat ≤ s.cfg.outCap.toNat ∧ s.sbCount.toNat ≤ s.cfg.sbMax ∧
    s.n + 1 ≤ s.width.toNat ∧ s.width.toNat ≤ codeMaxW ∧ firstFree s.n ≤ s.next.toNat ∧ s.next.toNat ≤ dictSize ∧
    (s.next.toNat ≤ 2 ^ s.width.toNat - 1 ∨ (s.n = 1 ∧ s.width.toNat = 2 ∧ s.next.toNat = 4)) ∧
    (s.prev = none → s.next.toNat = firstFree s.n) ∧ (s.prev.all fun p => decide (s.bound p)) = true ∧
    s.outCount.toNat ≤ s.expect.toNat ∧
    ∀ k < s.outCount.toNat, ((s.out.read? k).any fun x => decide (x.toNat < clearCode s.n)) = true

/-- `RunInv` from the check. -/
theorem runInv_of {s : State} (hd : DictInv s) (hr : ReaderCheck s) (h : RunCheck s) : RunInv s := by
  obtain ⟨a1, a2, a3, a4, a5, a6, a7, a8, a9, a10, a11, a12, a13⟩ := h
  refine ⟨a1, a2, a3, a4, a5, a6, a7, a8, a9.imp_right .inr, a10, ?_, hd, a12, ?_, readerInv_of hr⟩
  · intro p hp
    simpa [hp] using a11
  · intro k hk
    have := a13 k hk
    cases hx : s.out.read? k with
    | none => simp [hx] at this
    | some x => exact ⟨x, rfl, by simpa [hx] using this⟩

/-- `MachineInv` of a running state. -/
theorem machineInv_of {s : State} (hr : RunInv s) (h : s.inMem.wf ∧ s.dict.wf ∧ s.out.wf ∧ s.err = .none ∧ s.state = .run) :
    MachineInv s :=
  ⟨h.1, h.2.1, h.2.2.1, by simp [h.2.2.2], fun _ => hr⟩

/-- The invariant of a running state in which nothing is assigned. -/
theorem inv_of_none {s : State} (h : s.next.toNat = firstFree s.n) (hr : ReaderCheck s) (hc : RunCheck s)
    (hm : s.inMem.wf ∧ s.dict.wf ∧ s.out.wf ∧ s.err = .none ∧ s.state = .run) : MachineInv s :=
  machineInv_of (runInv_of (dictInv_of_none h) hr hc) hm

/-- The invariant of a running state in which slot 6 is assigned. -/
theorem inv_of_slot30 {s : State} (h : s.mcs = 2 ∧ s.next = 7 ∧ s.dict = slot30) (hr : ReaderCheck s) (hc : RunCheck s)
    (hm : s.inMem.wf ∧ s.dict.wf ∧ s.out.wf ∧ s.err = .none ∧ s.state = .run) : MachineInv s :=
  machineInv_of (runInv_of (dictInv_of_slot30 h.1 h.2.1 h.2.2) hr hc) hm

/-- A stream at its start: 95 T-E1. -/
theorem begun_inv : MachineInv (begun 2 1 [[0x44, 0x01]]) :=
  inv_of_none (by decide) (by decide +kernel) (by decide +kernel) (by decide +kernel)

/-- Both ends of the range of `n`, empty input. -/
theorem begun_inv_ends : MachineInv (begun 1 0 []) ∧ MachineInv (begun 11 65535 []) :=
  ⟨inv_of_none (by decide) (by decide +kernel) (by decide +kernel) (by decide +kernel),
    inv_of_none (by decide) (by decide +kernel) (by decide +kernel) (by decide +kernel)⟩

/-- A slot assigned, and the byte `x` still to read: at width 3 its low three bits are the next code. -/
def mid (p : Code) (w : Nat) (x : Byte) : State := grown p w [[x]]

/-- Mid-stream: the codes 0, 6 (REF), 7 (KWK), 5 (EOI) come next; the count is complete in the last. -/
theorem mid_inv : MachineInv (mid 0 9 0) ∧ MachineInv (mid 0 9 6) ∧ MachineInv (mid 6 9 7) ∧ MachineInv (mid 0 2 5) :=
  ⟨inv_of_slot30 (by decide) (by decide +kernel) (by decide +kernel) (by decide +kernel),
    inv_of_slot30 (by decide) (by decide +kernel) (by decide +kernel) (by decide +kernel),
    inv_of_slot30 (by decide) (by decide +kernel) (by decide +kernel) (by decide +kernel),
    inv_of_slot30 (by decide) (by decide +kernel) (by decide +kernel) (by decide +kernel)⟩

/-! ## Witnesses: for each statement with hypotheses, in the order of the statements, states and operands that meet them -/

/-- StepRunsTheFetchedCode: a code and an exhausted fetch; with nothing listed and with an engine turn listed. -/
theorem witness_fetched_code : (begun 2 1 [[0x44, 0x01]]).state = .run ∧ (begun 2 1 [[0x44, 0x01]]).agenda = [] ∧
    (∃ u, (begun 2 1 [[0x44, 0x01]]).nextCode 3 = (some 4, u)) ∧ (∃ u, (begun 2 1 []).nextCode 3 = (none, u)) ∧
    ({ begun 2 1 [] with agenda := [.engine] } : State).agenda = .engine :: [] :=
  ⟨rfl, rfl, ⟨_, Prod.ext (by decide +kernel) rfl⟩, ⟨_, Prod.ext (by decide +kernel) rfl⟩, rfl⟩

/-- StepRunsTheHostCommands: the three kinds of move. -/
theorem witness_host_commands : ({ State.reset with agenda := [.host .reset] } : State).agenda = .host .reset :: [] ∧
    ({ State.reset with agenda := [.host (.regWrite 0 3)] } : State).agenda = .host (.regWrite 0 3) :: [] ∧
    (3 : Word).getLsbD 0 = true ∧ (0xFFFFFFFE : Word).getLsbD 0 = false := ⟨rfl, rfl, by decide, by decide⟩

/-- EngineStepsExactlyInRun. -/
theorem witness_engine_steps : (MachineInv (begun 2 1 [[0x44, 0x01]]) ∧ (begun 2 1 [[0x44, 0x01]]).state = .run ∧
    (begun 2 1 [[0x44, 0x01]]).engineTurn) ∧ State.reset.state ≠ .run ∧ State.reset.agenda = [] ∧
    ({ State.reset with agenda := [.engine] } : State).agenda = .engine :: [] := ⟨⟨begun_inv, rfl, .inl rfl⟩, by decide, rfl, rfl⟩

/-- ClassificationIsTheOpcodeMap: a code of each class, at the ends of its range. -/
theorem witness_classification : CodeCtx.Legal ⟨2, 7, true⟩ ∧ classify ⟨2, 7, true⟩ 4 = .clr ∧ classify ⟨2, 7, true⟩ 5 = .eoi ∧
    classify ⟨2, 7, true⟩ 3 = .lit 3 ∧ classify ⟨2, 7, true⟩ 6 = .ref 6 ∧ classify ⟨2, 7, true⟩ 7 = .kwk ∧
    classify ⟨2, 7, true⟩ 8 = .unassigned 8 ∧ CodeCtx.Legal ⟨2, 4096, true⟩ ∧ classify ⟨2, 4096, true⟩ 4095 = .ref 4095 ∧
    CodeCtx.Legal ⟨2, 6, false⟩ ∧ classify ⟨2, 6, false⟩ 6 = .unassigned 6 := by decide

/-- FetchedCodeIsAFieldOfThreeBytes, NextCodeIsTheClosedForm, FetchReadsOnlyTheBytesItNeeds: a reader at the start, one with five
bits pending, widths 2 and 12, enough bits and too few. -/
theorem witness_reader : ReaderInv (begun 2 1 [[0x44, 0x01]]) ∧ legalWidth (begun 2 1 [[0x44, 0x01]]).width.toNat ∧
    (begun 2 1 [[0x44, 0x01]]).bitpos + 12 ≤ 8 * (begun 2 1 [[0x44, 0x01]]).inBytes.length ∧
    ReaderInv (begun 2 1 []) ∧ 8 * (begun 2 1 []).inBytes.length < (begun 2 1 []).bitpos + 2 ∧
    ReaderInv { begun 2 1 [[0x44, 0x01]] with reader := ⟨8, 5, 0, 1⟩ } ∧
    3 ≤ ({ begun 2 1 [[0x44, 0x01]] with reader := ⟨8, 5, 0, 1⟩ } : State).reader.nbits.toNat ∧
    ((begun 2 1 [[0x44, 0x01]]).nextCode 3).1.isSome ∧
    ((begun 2 1 [[0x44, 0x01]]).nextCode 3).2.consumed ≠ (begun 2 1 [[0x44, 0x01]]).consumed :=
  ⟨readerInv_of (by decide +kernel), by decide, by decide +kernel, readerInv_of (by decide +kernel), by decide +kernel,
    readerInv_of (by decide +kernel), by decide, by decide +kernel, by decide +kernel⟩

/-- EncodedInstructionDecodesAnywhereInAStream: KWK at bit 6 of `8C 2D`. -/
theorem witness_encoded : CodeCtx.Legal ⟨2, 6, true⟩ ∧ Instr.kwk.wf ⟨2, 6, true⟩ = true ∧ encode ⟨2, 6, true⟩ .kwk = .code 6 ∧
    legalWidth 3 ∧ 6 + 3 ≤ 8 * [(0x8C : Byte), 0x2D].length ∧ (6 : Code).toNat < 2 ^ 3 ∧
    ∀ j < 3, streamBit [0x8C, 0x2D] (6 + j) = (6 : Code).getLsbD j := by decide

/-- PackedStreamReadsBack, what is tracked: an engine turn that goes on over LIT without a predecessor, LIT, REF and KWK with one, CLR,
and EOI that ends in `DONE` (its START: witness_start_run). -/
theorem witness_track : (MachineInv (begun 2 9 [[0]]) ∧ ∃ t, step (begun 2 9 [[0]]) = .next t ∧ t.state = .run) ∧
    (∃ t, step (mid 0 9 0) = .next t ∧ t.state = .run) ∧ (∃ t, step (mid 0 9 6) = .next t ∧ t.state = .run) ∧
    (∃ t, step (mid 6 9 7) = .next t ∧ t.state = .run) ∧
    (MachineInv (mid 0 9 4) ∧ (mid 0 9 4).engineTurn ∧ ∃ t, step (mid 0 9 4) = .next t ∧ t.state = .run) ∧
    (∃ t, step (mid 0 2 5) = .next t ∧ t.state = .done) ∧
    (∃ t, exec (classify (mid 6 9 7).ctx 7) (mid 6 9 7) = .next t ∧ t.state = .run) :=
  ⟨⟨inv_of_none (by decide) (by decide +kernel) (by decide +kernel) (by decide +kernel), exists_next (by decide +kernel)⟩,
    exists_next (by decide +kernel), exists_next (by decide +kernel), exists_next (by decide +kernel),
    ⟨inv_of_slot30 (by decide) (by decide +kernel) (by decide +kernel) (by decide +kernel), .inl rfl, exists_next (by decide +kernel)⟩,
    exists_next (by decide +kernel), exists_next (by decide +kernel)⟩

/-- PackedStreamReadsBack: both ends of the range of `n`. -/
theorem witness_packed : (pack 1 [2, 0, 1, 4, 3]).isSome ∧ (pack 11 [2048, 2047, 2050, 2049]).isSome ∧ nMin ≤ 1 ∧ 11 ≤ nMax := by
  decide

/-- NextCodeIsTheClosedForm, ClrOnAFreshDictionaryChangesNothing, StartBeginsARun: a START that begins a run. -/
theorem witness_start_run : State.reset.state ≠ .run ∧
    ∃ t, exec .start { State.reset with mcs := 2 } = .next t ∧ t.state = .run := ⟨by decide, exists_next (by decide +kernel)⟩

/-- ExhaustionIsFinal: eight bits left of twelve; then both a request they cannot serve and one they can. -/
theorem witness_exhausted : ReaderInv (begun 2 1 [[0x44]]) ∧ ((begun 2 1 [[0x44]]).nextCode 12).1 = none ∧
    ((begun 2 1 [[0x44]]).nextCode 12).2.reader.nbits.toNat = 8 ∧
    (((begun 2 1 [[0x44]]).nextCode 12).2.nextCode 8).1 = some 0x44 ∧ (((begun 2 1 [[0x44]]).nextCode 12).2.nextCode 9).1 = none :=
  ⟨readerInv_of (by decide +kernel), by decide +kernel, by decide +kernel, by decide +kernel, by decide +kernel⟩

/-- ClrRestoresTheStartDictionary and NothingIsAssignedAfterClr: `n` at both ends, a code from `CLEAR + 2` up. -/
theorem witness_clr : nMin ≤ (begun 1 0 []).n ∧ (begun 1 0 []).n = 1 ∧ (begun 11 0 []).n = 11 ∧ (begun 11 0 []).n ≤ nMax ∧
    2 ^ (grown 0 2 []).n + 2 ≤ (6 : Code).toNat ∧ ∃ t, exec .clr (grown 0 2 []) = .next t :=
  ⟨by decide, by decide, by decide, by decide, by decide, ⟨_, rfl⟩⟩

/-- EoiHaltsTheEngine: its five clauses. -/
theorem witness_eoi : ((grown 0 2 []).cfg.tailCheck = false ∧ (grown 0 2 []).outCount = (grown 0 2 []).expect) ∧
    (grown 0 3 []).outCount ≠ (grown 0 3 []).expect ∧
    (∃ u, ({ grown 0 2 [[0]] with cfg := ⟨1, 9, true⟩ } : State).nextCode 3 = (some 0, u)) ∧
    (∃ u, ({ grown 0 2 [] with cfg := ⟨1, 9, true⟩ } : State).nextCode 3 = (none, u)) ∧
    ({ grown 0 3 [] with cfg := ⟨1, 9, true⟩ } : State).cfg.tailCheck = true :=
  ⟨⟨rfl, by decide⟩, by decide, ⟨_, Prod.ext (by decide +kernel) rfl⟩, ⟨_, Prod.ext (by decide +kernel) rfl⟩, rfl⟩

/-- LitWithoutPredecessor: the last index of the run. -/
theorem witness_lit_first : (begun 2 1 []).prev = none ∧ (begun 2 1 []).outCount.toNat + 1 ≤ (begun 2 1 []).expect.toNat := by
  decide

/-- LitWithPredecessor: with room (the last index of the run) and with the dictionary full. -/
theorem witness_lit_second : (grown 0 3 []).prev = some 0 ∧ (grown 0 3 []).known 0 ∧
    (grown 0 3 []).outCount.toNat + 1 ≤ (grown 0 3 []).expect.toNat ∧ (full 6 3).prev = some 6 ∧ (full 6 3).known 6 ∧
    (full 6 3).outCount.toNat + 1 ≤ (full 6 3).expect.toNat := by decide

/-- RefOutputsItsString: `NEXT = 7` and `NEXT = 4096`, a string that just fits. -/
theorem witness_ref : (grown 0 4 []).prev = some 0 ∧ (grown 0 4 []).known 0 ∧ (grown 0 4 []).str? 6 = some [3, 0] ∧
    (grown 0 4 []).first? 6 = some 3 ∧ (grown 0 4 []).outCount.toNat + 2 ≤ (grown 0 4 []).expect.toNat ∧
    (full 6 4).str? 6 = some [3, 0] ∧ (full 6 4).known 6 := by decide +kernel

/-- KwkExtendsThePreviousString: `NEXT = 7` and `NEXT = 4095`, a string that just fits. -/
theorem witness_kwk : (grown 6 5 []).prev = some 6 ∧ (grown 6 5 []).known 6 ∧ (grown 6 5 []).str? 6 = some [3, 0] ∧
    (grown 6 5 []).first? 6 = some 3 ∧ (grown 6 5 []).next.toNat < 4096 ∧
    (grown 6 5 []).outCount.toNat + 2 + 1 ≤ (grown 6 5 []).expect.toNat ∧
    ({ full 6 5 with next := 4095 } : State).str? 6 = some [3, 0] ∧ ({ full 6 5 with next := 4095 } : State).next.toNat < 4096 := by
  decide +kernel

/-- OverflowingEmissionWritesNothing: each of its clauses, one index over. -/
theorem witness_overflow : (grown 0 2 []).expect.toNat < (grown 0 2 []).outCount.toNat + 1 ∧
    (grown 0 3 []).prev = some 0 ∧ (grown 0 3 []).str? 6 = some [3, 0] ∧ (grown 0 3 []).first? 6 = some 3 ∧
    (grown 0 3 []).expect.toNat < (grown 0 3 []).outCount.toNat + 2 ∧
    (grown 6 4 []).str? 6 = some [3, 0] ∧ (grown 6 4 []).first? 6 = some 3 ∧ (grown 6 4 []).next.toNat < 4096 ∧
    (grown 6 4 []).expect.toNat < (grown 6 4 []).outCount.toNat + 2 + 1 := by decide +kernel

/-- DataCodesStopOutsideTheirRequirements: each of its clauses. -/
theorem witness_stops : (begun 2 9 []).prev = none ∧ (full 0 9).prev = some 0 ∧ (full 0 9).next.toNat = 4096 ∧
    ¬(grown 0 9 []).bound 7 ∧ (grown 7 9 []).prev = some 7 ∧ ¬(grown 7 9 []).bound 7 ∧ (grown 7 9 []).next.toNat < 4096 ∧
    (grown 7 9 []).outCount.toNat + 1 ≤ (grown 7 9 []).expect.toNat := by decide

/-- CodesLeaveTheRestAlone: each code gives a next state. -/
theorem witness_frame : (∃ t, exec .clr (grown 0 9 []) = .next t) ∧ (∃ t, exec .eoi (grown 0 9 []) = .next t) ∧
    (∃ t, exec (.lit 3) (grown 0 9 []) = .next t ∧ t.state = .run) ∧ (∃ t, exec (.ref 6) (grown 0 9 []) = .next t ∧ t.state = .run) ∧
    (∃ t, exec .kwk (grown 6 9 []) = .next t ∧ t.state = .run) ∧ (∃ t, exec (.unassigned 8) (grown 0 9 []) = .next t) :=
  ⟨⟨_, rfl⟩, ⟨_, rfl⟩, exists_next (by decide +kernel), exists_next (by decide +kernel), exists_next (by decide +kernel), ⟨_, rfl⟩⟩

/-- WidthGrowsWhenNextPassesIt: the growth at slot 7, the last slot at width 12, the corner of `n = 1`. -/
theorem witness_width : ((grown 0 9 []).next.toNat ≤ 2 ^ (grown 0 9 []).width.toNat - 1 ∧ (grown 0 9 []).width.toNat ≤ 12) ∧
    (({ full 0 9 with next := 4095 } : State).next.toNat ≤ 2 ^ (full 0 9).width.toNat - 1 ∧ (full 0 9).width.toNat = 12) ∧
    ((begun 1 9 []).width.toNat = 2 ∧ (begun 1 9 []).next.toNat = 4) := by decide

/-- EveryBoundCodeHasAString: an assigned code and the last literal. -/
theorem witness_bound : RunInv (mid 0 9 0) ∧ (mid 0 9 0).bound 6 ∧ (mid 0 9 0).bound 3 :=
  ⟨mid_inv.1.run rfl, by decide, by decide⟩

/-- AssignedStringIsPreviousPlusFirst and BoundStringsNeverChange: LIT, REF and KWK that go on, with an assigned predecessor. -/
theorem witness_assigned : RunInv (mid 6 9 7) ∧ (mid 6 9 7).prev = some 6 ∧ (mid 6 9 7).str? 6 = some [3, 0] ∧
    (mid 6 9 7).next.toNat < 4096 ∧ (7 : Code).toNat = (mid 6 9 7).next.toNat ∧ (mid 6 9 7).state = .run ∧
    (∃ t, exec (.lit 3) (mid 6 9 7) = .next t ∧ t.state = (mid 6 9 7).state) ∧
    (∃ t, exec (.ref 6) (mid 6 9 7) = .next t ∧ t.state = (mid 6 9 7).state) ∧
    (∃ t, exec .kwk (mid 6 9 7) = .next t ∧ t.state = (mid 6 9 7).state) ∧ (mid 6 9 7).bound 6 :=
  ⟨mid_inv.2.2.1.run rfl, rfl, by decide +kernel, by decide, by decide, rfl, exists_next (by decide +kernel),
    exists_next (by decide +kernel), exists_next (by decide +kernel), by decide⟩

/-- FullDictionaryLeavesNoCodeUnassigned: the least and the greatest assigned code, and a literal. -/
theorem witness_full : CodeCtx.Legal ⟨2, 4096, true⟩ ∧ classify ⟨2, 4096, true⟩ 6 = .ref 6 ∧
    classify ⟨2, 4096, true⟩ 4095 = .ref 4095 ∧ classify ⟨2, 4096, true⟩ 3 = .lit 3 := by decide

/-- StartBeginsARun: both ends of the range of `n`, the output and the input store exactly filled. -/
theorem witness_start : State.reset.state ≠ .run ∧
    (let s : State := { State.reset with mcs := 1, imgW := 5, imgH := 2, sbCount := 3, cfg := ⟨3, 10, false⟩ }
     1 ≤ s.n ∧ s.expect.toNat ≤ s.cfg.outCap.toNat ∧ s.sbCount.toNat ≤ s.cfg.sbMax) ∧
    ({ State.reset with mcs := 11 } : State).n ≤ 11 := by decide

/-- StartRefusesABadConfiguration: each of the four reasons, by one. -/
theorem witness_start_refused : ({ State.reset with mcs := 0 } : State).n < 1 ∧ 11 < ({ State.reset with mcs := 12 } : State).n ∧
    (let s : State := { State.reset with imgW := 11, imgH := 1, cfg := ⟨3, 10, false⟩ }
     s.cfg.outCap.toNat < s.expect.toNat) ∧
    (let s : State := { State.reset with sbCount := 4, cfg := ⟨3, 10, false⟩ }
     s.cfg.sbMax < s.sbCount.toNat) := by decide

/-- StartInRunIsIgnored, ExpectIsTheExactProduct, InputIsImmutableInRun: a run with a host move that is no reset, and with none. -/
theorem witness_run : (begun 2 1 [[0x44, 0x01]]).state = .run ∧ (begun 2 1 [[0x44, 0x01]]).hostMove? ≠ some .reset ∧
    (∃ t, step (begun 2 1 [[0x44, 0x01]]) = .next t ∧ t.state = .run) ∧
    ({ begun 2 1 [] with agenda := [.host (.regWrite 2 5)] } : State).hostMove? ≠ some .reset :=
  ⟨rfl, by decide, exists_next (by decide +kernel), by decide⟩

/-- StatusFields: a state without and one with an error; a read and a write of `STATUS`. -/
theorem witness_status : MachineInv State.reset ∧ MachineInv { State.reset with state := .error, err := .config } ∧
    ({ State.reset with agenda := [.host (.regRead 1)] } : State).agenda = .host (.regRead 1) :: [] ∧
    ({ State.reset with agenda := [.host (.regWrite 1 7)] } : State).agenda = .host (.regWrite 1 7) :: [] :=
  ⟨⟨by decide, by decide, by decide, by decide, fun h => nomatch h⟩, ⟨by decide, by decide, by decide, by decide, fun h => nomatch h⟩,
    rfl, rfl⟩

/-- RegisterReadsReturnTheRegister and RegisterWritesStoreTheLowBits: numbers 0 to 8, outside and in `RUN`. -/
theorem witness_registers : (∀ r < 9, ({ State.reset with agenda := [.host (.regRead r)] } : State).agenda = .host (.regRead r) :: []) ∧
    (∀ r < 9, ({ State.reset with agenda := [.host (.regWrite r 3)] } : State).agenda = .host (.regWrite r 3) :: []) ∧
    State.reset.state ≠ .run ∧ ({ begun 2 1 [] with agenda := [.host (.regWrite 7 3)] } : State).state = .run :=
  ⟨fun _ _ => rfl, fun _ _ => rfl, by decide, rfl⟩

/-- InputWritesStoreOneByte and InputReadsReturnTheStoredByte: the first address beyond a store of one slot, the last within,
the length byte, in `RUN` and outside. -/
theorem witness_input : ({ State.reset with cfg := ⟨1, 9, false⟩, agenda := [.host (.inWrite 256 7)] } : State).agenda =
      .host (.inWrite 256 7) :: [] ∧
    256 * ({ State.reset with cfg := ⟨1, 9, false⟩ } : State).cfg.sbMax ≤ 256 ∧
    255 < 256 * ({ State.reset with cfg := ⟨1, 9, false⟩ } : State).cfg.sbMax ∧ 0 % 256 = 0 ∧ 255 % 256 ≠ 0 ∧
    State.reset.state ≠ .run ∧ 0 < 256 * (begun 2 1 []).cfg.sbMax ∧ (begun 2 1 []).state = .run ∧
    (begun 2 1 [[0x44]]).inMem.read? 1 = some 0x44 ∧
    ({ begun 2 1 [[0x44]] with agenda := [.host (.inRead 1)] } : State).agenda = .host (.inRead 1) :: [] :=
  ⟨rfl, by decide, by decide, by decide, by decide, by decide, by decide, rfl, by decide, rfl⟩

/-- OutputReadsReturnTheIndex: the last index emitted, read in `DONE`. -/
theorem witness_output : (let s : State := { grown 0 2 [] with state := .done, agenda := [.host (.outRead 1)] }
    s.agenda = .host (.outRead 1) :: [] ∧ s.state ≠ .run ∧ 1 < s.outCount.toNat ∧ s.out.read? 1 = some 0) := by decide

/-- EveryStepKeepsTheInvariant, StepsNeverStop, ParametersNeverChange, EveryRunEnds clause 1: invariant states that step, by an engine turn
and by a host move; and one whose host move is beyond the store. -/
theorem witness_step : MachineInv (mid 0 9 6) ∧ (∃ t, step (mid 0 9 6) = .next t ∧ t.state = .run) ∧ (mid 0 9 6).agenda = [] ∧
    MachineInv { State.reset with cfg := ⟨1, 9, false⟩, agenda := [.host (.inRead 256)] } ∧
    (∃ t, step { State.reset with agenda := [.host (.regRead 1)] } = .next t) :=
  ⟨mid_inv.2.1, exists_next (by decide +kernel), rfl, ⟨by decide, by decide, by decide, by decide, fun h => nomatch h⟩, ⟨_, rfl⟩⟩

/-- StateChangesOnlyAsListed: each of the transitions. -/
theorem witness_transitions : (∃ t, step { begun 2 1 [] with agenda := [.host .reset] } = .next t ∧ t.state = .idle) ∧
    (∃ t, step { State.reset with mcs := 2, agenda := [.host (.regWrite 0 1)] } = .next t ∧ t.state = .run) ∧
    (∃ t, step { State.reset with agenda := [.host (.regWrite 0 1)] } = .next t ∧ t.state = .error) ∧
    (∃ t, step (mid 0 2 5) = .next t ∧ t.state = .done) ∧ (∃ t, step (begun 2 1 []) = .next t ∧ t.state = .error) :=
  ⟨exists_next (by decide +kernel), exists_next (by decide +kernel), exists_next (by decide +kernel), exists_next (by decide +kernel),
    exists_next (by decide +kernel)⟩

/-- A run with the tail check, whose first code is EOI with a code's worth of bits after it. -/
def tailed : State := { begun 2 0 [[0x05]] with cfg := ⟨1, 9, true⟩ }

/-- ErrorsArePrecise and CausesFollowTheOrderOfTheTests: invariant states whose engine step raises each cause. -/
theorem witness_errors :
    (MachineInv (begun 2 1 []) ∧ (begun 2 1 []).engineTurn ∧ ∃ t, step (begun 2 1 []) = .next t ∧ t.state = .error ∧ t.err = .trunc) ∧
    (MachineInv (begun 2 1 [[0x06]]) ∧ ∃ t, step (begun 2 1 [[0x06]]) = .next t ∧ t.state = .error ∧ t.err = .unassigned) ∧
    (MachineInv (mid 0 2 0) ∧ ∃ t, step (mid 0 2 0) = .next t ∧ t.state = .error ∧ t.err = .count) ∧
    (MachineInv (mid 0 3 5) ∧ ∃ t, step (mid 0 3 5) = .next t ∧ t.state = .error ∧ t.err = .count) ∧
    (MachineInv (mid 0 3 6) ∧ ∃ t, step (mid 0 3 6) = .next t ∧ t.state = .error ∧ t.err = .count) ∧
    (MachineInv tailed ∧ ∃ t, step tailed = .next t ∧ t.state = .error ∧ t.err = .afterEoi) :=
  ⟨⟨inv_of_none (by decide) (by decide +kernel) (by decide +kernel) (by decide +kernel), .inl rfl, exists_next (by decide +kernel)⟩,
    ⟨inv_of_none (by decide) (by decide +kernel) (by decide +kernel) (by decide +kernel), exists_next (by decide +kernel)⟩,
    ⟨inv_of_slot30 (by decide) (by decide +kernel) (by decide +kernel) (by decide +kernel), exists_next (by decide +kernel)⟩,
    ⟨inv_of_slot30 (by decide) (by decide +kernel) (by decide +kernel) (by decide +kernel), exists_next (by decide +kernel)⟩,
    ⟨inv_of_slot30 (by decide) (by decide +kernel) (by decide +kernel) (by decide +kernel), exists_next (by decide +kernel)⟩,
    ⟨inv_of_none (by decide) (by decide +kernel) (by decide +kernel) (by decide +kernel), exists_next (by decide +kernel)⟩⟩

/-- DoneMeansTheExactCount: EOI with the count complete. -/
theorem witness_done : MachineInv (mid 0 2 5) ∧ (mid 0 2 5).state = .run ∧ ∃ t, step (mid 0 2 5) = .next t ∧ t.state = .done :=
  ⟨mid_inv.2.2.2, rfl, exists_next (by decide +kernel)⟩

/-- DoneMeansTheExactCount, the result of any state: the last index of a finished run; a run whose image the host has since
declared one index wider, one shorter; an error; and the two states without a result. -/
theorem witness_result : (let s : State := { grown 0 2 [] with state := .done }
     s.state = .done ∧ 1 < s.outCount.toNat ∧ 1 < s.expect.toNat ∧ s.out.read? 1 = some 0) ∧
    (let s : State := { grown 0 3 [] with state := .done }
     s.outCount.toNat < s.expect.toNat) ∧
    (let s : State := { grown 0 1 [] with state := .done }
     s.expect.toNat < s.outCount.toNat) ∧
    ({ grown 0 2 [] with state := .error, err := .count } : State).state = .error ∧ State.reset.state = .idle ∧
    (grown 0 2 []).state = .run := by decide

/-- A run whose host polls `STATUS`, writes and reads the input store and writes `CTRL` between engine turns. -/
def polled : State :=
  { mid 0 9 6 with
    agenda := [.host (.regRead 1), .engine, .host (.inWrite 1 0), .host (.inRead 0), .host (.regWrite 0 1), .engine] }

/-- EveryRunEnds: a run left to the engine, and one among whose turns the host's stand. -/
theorem witness_run_ends : (mid 0 9 6).state = .run ∧ (∀ m, .host m ∈ (mid 0 9 6).agenda → m ≠ .reset ∧ m.inStore (mid 0 9 6)) ∧
    MachineInv polled ∧ polled.state = .run ∧ ∀ m, .host m ∈ polled.agenda → m ≠ .reset ∧ m.inStore polled := by
  refine ⟨rfl, fun m h => (by cases h), ?_, rfl, ?_⟩
  · exact inv_of_slot30 (by decide) (by decide +kernel) (by decide +kernel) (by decide +kernel)
  · intro m h
    simp only [polled, List.mem_cons, Turn.host.injEq, reduceCtorEq, List.not_mem_nil, false_or, or_false] at h
    rcases h with rfl | rfl | rfl | rfl
    · exact ⟨nofun, trivial⟩
    · exact ⟨nofun, by show 1 < polled.inSize; decide⟩
    · exact ⟨nofun, by show 0 < polled.inSize; decide⟩
    · exact ⟨nofun, trivial⟩

/-- SplittingTheInputCannotBeObserved: 95 T-E1 in one sub-block and in three, one of them empty. -/
theorem witness_split : MachineInv (begun 2 1 [[0x44, 0x01]]) ∧ MachineInv (begun 2 1 [[0x44], [], [0x01]]) ∧
    SameButSplit (begun 2 1 [[0x44, 0x01]]) (begun 2 1 [[0x44], [], [0x01]]) :=
  ⟨begun_inv, inv_of_none (by decide) (by decide +kernel) (by decide +kernel) (by decide +kernel),
    ⟨rfl, rfl, rfl, rfl, rfl, by decide +kernel, by decide +kernel, ⟨rfl, rfl, rfl, rfl⟩, ⟨rfl, rfl⟩, rfl, rfl, rfl⟩⟩

end Sys2Proof.Tests
end

section
/-! The parameters `SB_MAX`, `OUT_CAP` and `TAIL_CHECK` are no state of the block (00 R6, 10 R20): each meaning, then each kind
of turn, then the step leaves `cfg` as it is. -/
namespace Sys2Proof.Machine

@[simp] theorem State.finalCheck_cfg (s : State) : s.finalCheck.cfg = s.cfg := by
  rcases s.finalCheck_cases with ⟨-, e⟩ | ⟨-, e⟩ <;> simp [e]

@[simp] theorem State.configWrite_cfg (s : State) (r : Nat) (v : Word) : (s.configWrite r v).cfg = s.cfg := by
  unfold State.configWrite
  split <;> rfl

theorem State.emitAssign_cfg {S : List LzwSym} {p : Code} {x : LzwSym} {c : Code} {s t : State}
    (h : s.emitAssign S p x c = .next t) : t.cfg = s.cfg := by
  rcases State.emitAssign_next h with ⟨-, rfl⟩ | ⟨-, -, -, -, -, -, -, -, hs⟩
  · exact s.raise_cfg .count
  · exact hs.cfg

theorem execClr_cfg {s t : State} (h : execClr s = .next t) : t.cfg = s.cfg := by
  cases h
  exact s.clearDict_cfg

theorem execEoi_cfg {s t : State} (h : execEoi s = .next t) : t.cfg = s.cfg := by
  have hf := s.nextCode_cfg s.width.toNat
  unfold execEoi at h
  split at h
  · split at h
    next e =>
      cases h
      simpa [e] using hf
    next e =>
      cases h
      simpa [e] using hf
  · cases h
    exact s.finalCheck_cfg

theorem execLit_cfg {k : Code} {s t : State} (h : execLit k s = .next t) : t.cfg = s.cfg := by
  unfold execLit at h
  split at h
  · split at h <;> cases h <;> simp
  · exact State.emitAssign_cfg h

theorem execRef_cfg {c : Code} {s t : State} (h : execRef c s = .next t) : t.cfg = s.cfg := by
  unfold execRef at h
  split at h
  · cases h
  · split at h
    · exact State.emitAssign_cfg h
    · cases h

theorem execKwk_cfg {s t : State} (h : execKwk s = .next t) : t.cfg = s.cfg := by
  unfold execKwk at h
  split at h
  · cases h
  · split at h
    · cases h
    · split at h
      · exact State.emitAssign_cfg h
      · cases h

theorem execUnassigned_cfg {c : Code} {s t : State} (h : execUnassigned c s = .next t) : t.cfg = s.cfg := by
  cases h
  exact s.raise_cfg .unassigned

theorem execStart_cfg {s t : State} (h : execStart s = .next t) : t.cfg = s.cfg := by
  unfold execStart at h
  repeat' split at h
  all_goals
    cases h
    simp

theorem execRst_cfg {s t : State} (h : execRst s = .next t) : t.cfg = s.cfg := by
  cases h
  rfl

/-- Every row of the opcode table keeps the parameters, the two host commands included. -/
theorem exec_cfg {i : Instr} {s t : State} (h : exec i s = .next t) : t.cfg = s.cfg := by
  cases i with
  | clr => exact execClr_cfg h
  | eoi => exact execEoi_cfg h
  | lit k => exact execLit_cfg h
  | ref c => exact execRef_cfg h
  | kwk => exact execKwk_cfg h
  | unassigned c => exact execUnassigned_cfg (c := c) h
  | start => exact execStart_cfg h
  | rst => exact execRst_cfg h

theorem engineStep_cfg {s t : State} (h : engineStep s = .next t) : t.cfg = s.cfg := by
  rcases engineStep_cases s with ⟨-, e⟩ | ⟨-, -, e⟩ | ⟨-, c, -, e⟩ <;> rw [e] at h
  · cases h
    rfl
  · cases h
    simp
  · exact (exec_cfg h).trans (s.nextCode_cfg _)

theorem hostRegWrite_cfg {r : Nat} {v : Word} {s t : State} (h : hostRegWrite r v s = .next t) : t.cfg = s.cfg := by
  unfold hostRegWrite at h
  split at h
  · split at h
    · exact exec_cfg h
    · cases h
      rfl
  · split at h <;> cases h <;> simp

theorem hostInRead_cfg {a : Nat} {s t : State} (h : hostInRead a s = .next t) : t.cfg = s.cfg := by
  unfold hostInRead at h
  split at h <;> cases h
  exact s.answer_cfg _

theorem hostInWrite_cfg {a : Nat} {b : Byte} {s t : State} (h : hostInWrite a b s = .next t) : t.cfg = s.cfg := by
  unfold hostInWrite at h
  split at h <;> cases h
  split
  · rfl
  · exact s.storeIn_cfg a b

theorem hostOutRead_cfg {k : Nat} {s t : State} (h : hostOutRead k s = .next t) : t.cfg = s.cfg := by
  unfold hostOutRead at h
  split at h <;> cases h <;> rfl

theorem hostStep_cfg {m : HostMove} {s t : State} (h : hostStep m s = .next t) : t.cfg = s.cfg := by
  cases m with
  | reset => exact exec_cfg (i := .rst) h
  | regRead r =>
    cases h
    exact s.answer_cfg _
  | regWrite r v => exact hostRegWrite_cfg h
  | inRead a => exact hostInRead_cfg h
  | inWrite a b => exact hostInWrite_cfg h
  | outRead k => exact hostOutRead_cfg h

/-- Settles O51: a step is an engine turn or a host's move, in a state whose agenda alone is shorter, and both keep `cfg`. -/
theorem parametersNeverChange : Obligations.ParametersNeverChange := by
  intro s t h
  rcases step_cases s with ⟨-, e⟩ | ⟨rest, -, e⟩ | ⟨m, rest, -, e⟩ <;> rw [e] at h
  · exact engineStep_cfg h
  · exact (engineStep_cfg h).trans (s.setAgenda_cfg rest)
  · exact (hostStep_cfg h).trans (s.setAgenda_cfg rest)

end Sys2Proof.Machine
end

section
/-! What a completed turn can leave, said once: a code of the stream (41, 42), START (44 R181) and a move of the host
(44 R180 to R185). The claims about every step are case analyses over these three. -/
namespace Sys2Proof.Machine

/-- The code `i` outputs `S`, extends the previous string by `x` and makes `c` the predecessor (42 R150 to R152). -/
inductive Sends (s : State) : Instr → List LzwSym → LzwSym → Code → Prop
  | lit (k : Code) : Sends s (.lit k) [k] k k
  | ref {c : Code} {S : List LzwSym} {f : LzwSym} (hS : s.str? c = some S) (hf : s.first? c = some f) : Sends s (.ref c) S f c
  | kwk {p : Code} {S : List LzwSym} {f : LzwSym} (hp : s.prev = some p) (hroom : ¬s.dictFull) (hS : s.str? p = some S)
      (hf : s.first? p = some f) : Sends s .kwk (S ++ [f]) f (s.next.setWidth 12)

/-- What a code that completes leaves: the cleared dictionary, a halt (after EOI's tail fetch, if any), the first literal of a
run, or an output with the assignment after it. -/
inductive CodeLeaves (s : State) : Instr → State → Prop
  | cleared : CodeLeaves s .clr s.clearDict
  | raised {i : Instr} (r : BitReader) {e : ErrCode} (he : e ≠ .none) : CodeLeaves s i ((s.setReader r).raise e)
  | finished (r : BitReader) (hc : s.outCount = s.expect) : CodeLeaves s .eoi (s.setReader r).finish
  | first {k : Code} (hp : s.prev = none) (ho : ¬s.overflows 1) : CodeLeaves s (.lit k) ((s.emit [k]).setPrev k)
  | assigned {i : Instr} {S : List LzwSym} {p : Code} {x : LzwSym} {c : Code} {t : State} (hp : s.prev = some p)
      (hi : Sends s i S x c) (ho : ¬s.overflows S.length) (h : s.emitAssign S p x c = .next t) : CodeLeaves s i t

/-- The shared tail of LIT, REF and KWK as a code's effect. -/
theorem CodeLeaves.of_emitAssign {s t : State} {i : Instr} {S : List LzwSym} {p : Code} {x : LzwSym} {c : Code}
    (hp : s.prev = some p) (hi : Sends s i S x c) (h : s.emitAssign S p x c = .next t) : CodeLeaves s i t := by
  rcases State.emitAssign_next h with ⟨-, rfl⟩ | ⟨ho, -⟩
  · exact .raised s.reader (by decide)
  · exact .assigned hp hi ho h

theorem CodeLeaves.of_finalCheck (s : State) (r : BitReader) : CodeLeaves s .eoi (s.setReader r).finalCheck := by
  rcases (s.setReader r).finalCheck_cases with ⟨hc, e⟩ | ⟨-, e⟩ <;> rw [e]
  · exact .finished r hc
  · exact .raised r (by decide)

theorem CodeLeaves.of_execEoi {s t : State} (h : execEoi s = .next t) : CodeLeaves s .eoi t := by
  unfold execEoi at h
  split at h
  · rcases s.nextCode_eq s.width.toNat with ⟨e, -⟩ | ⟨e, -⟩ <;> rw [e] at h <;> cases h
    · exact .of_finalCheck s _
    · exact .raised _ (by decide)
  · cases h
    exact .of_finalCheck s s.reader

theorem CodeLeaves.of_execLit {k : Code} {s t : State} (h : execLit k s = .next t) : CodeLeaves s (.lit k) t := by
  unfold execLit at h
  split at h
  next hp =>
    split at h <;> cases h
    next => exact .raised s.reader (by decide)
    next ho => exact .first hp ho
  next p hp => exact .of_emitAssign hp (.lit k) h

theorem CodeLeaves.of_execRef {c : Code} {s t : State} (h : execRef c s = .next t) : CodeLeaves s (.ref c) t := by
  unfold execRef at h
  split at h
  next => cases h
  next p hp =>
    split at h
    next S f hS hf => exact .of_emitAssign hp (.ref hS hf) h
    next => cases h

theorem CodeLeaves.of_execKwk {s t : State} (h : execKwk s = .next t) : CodeLeaves s .kwk t := by
  unfold execKwk at h
  split at h
  next => cases h
  next p hp =>
    split at h
    next => cases h
    next hroom =>
      split at h
      next S f hS hf => exact .of_emitAssign hp (.kwk hp hroom hS hf) h
      next => cases h

/-- Every code that completes, whatever the state. -/
theorem CodeLeaves.of_exec {i : Instr} {s t : State} (h : exec i s = .next t) (hs : i ≠ .start) (hr : i ≠ .rst) :
    CodeLeaves s i t := by
  cases i with
  | clr =>
    cases h
    exact .cleared
  | eoi => exact .of_execEoi h
  | lit k => exact .of_execLit h
  | ref c => exact .of_execRef h
  | kwk => exact .of_execKwk h
  | unassigned c =>
    cases h
    exact .raised s.reader (by decide)
  | start => exact absurd rfl hs
  | rst => exact absurd rfl hr

/-- The opcode map selects no host command (30 R93). -/
theorem classify_ne_start (x : CodeCtx) (c : Code) : classify x c ≠ .start := by
  rcases classify_cases x c with e | e | e | e | e | e <;> simp [e]

theorem classify_ne_rst (x : CodeCtx) (c : Code) : classify x c ≠ .rst := by
  rcases classify_cases x c with e | e | e | e | e | e <;> simp [e]

/-- The opcode map selects only instructions whose operand and context conditions hold (30 R93). -/
theorem classify_wf (x : CodeCtx) (c : Code) : (classify x c).wf x = true := by
  have hc := c.isLt
  unfold classify
  split
  next => rfl
  next h1 =>
    split
    next => rfl
    next h2 =>
      split
      next h3 => simpa [Instr.wf] using h3
      next h3 =>
        have hf : firstFree x.n ≤ c.toNat := by
          simp only [eoiCode, firstFree] at *
          omega
        split
        next h4 => simpa [Instr.wf, and_assoc] using h4
        next h4 =>
          split
          next h5 => simpa [Instr.wf] using ⟨h5.1, h5.2.2⟩
          next h5 =>
            have hn : x.prevValid = true → x.next.toNat < c.toNat := by
              intro hp
              simp only [hp, hf, true_and, dictSize] at h4 h5
              omega
            simpa [Instr.wf, hf, Decidable.imp_iff_not_or] using hn

/-- An engine turn in `RUN`: an exhausted fetch, or a well-formed code's effect on the state after the fetch (40 R131). -/
theorem engineStep_in_run {s t : State} (hs : s.state = .run) (h : engineStep s = .next t) :
    t = (s.nextCode s.width.toNat).2.raise .trunc ∨
    ∃ i : Instr, i.wf (s.nextCode s.width.toNat).2.ctx = true ∧ CodeLeaves (s.nextCode s.width.toNat).2 i t := by
  rcases engineStep_cases s with ⟨hn, -⟩ | ⟨-, -, e⟩ | ⟨-, c, -, e⟩
  · exact absurd hs hn
  · rw [e] at h
    cases h
    exact .inl rfl
  · rw [e] at h
    exact .inr ⟨_, classify_wf _ c, .of_exec h (classify_ne_start _ c) (classify_ne_rst _ c)⟩

theorem engineStep_outside_run {s t : State} (hs : s.state ≠ .run) (h : engineStep s = .next t) : t = s := by
  rcases engineStep_cases s with ⟨-, e⟩ | ⟨hr, -⟩ | ⟨hr, -⟩
  · rw [e] at h
    cases h
    rfl
  · exact absurd hr hs
  · exact absurd hr hs

/-- What START can leave (44 R181, R182). -/
theorem execStart_next {s t : State} (h : execStart s = .next t) :
    (s.state = .run ∧ t = s) ∨ (s.state ≠ .run ∧ t = s.clearResult.raise .config) ∨
    (s.state ≠ .run ∧ ¬s.badMcs ∧ ¬s.tooBig ∧ ¬s.tooMany ∧ t = s.clearResult.beginRun) := by
  unfold execStart at h
  split at h
  next hs =>
    cases h
    exact .inl ⟨hs, rfl⟩
  next hs =>
    split at h
    next =>
      cases h
      exact .inr (.inl ⟨hs, rfl⟩)
    next h1 =>
      split at h
      next =>
        cases h
        exact .inr (.inl ⟨hs, rfl⟩)
      next h2 =>
        split at h <;> cases h
        next => exact .inr (.inl ⟨hs, rfl⟩)
        next h3 => exact .inr (.inr ⟨hs, h1, h2, h3, rfl⟩)

/-- What a host's move leaves: the two commands, a write outside `RUN`, or, for a read or an ignored move, at most another word
returned and another count of free values. -/
inductive HostLeaves (s : State) : HostMove → State → Prop
  | reset {t : State} (h : execRst s = .next t) : HostLeaves s .reset t
  | started {v : Word} {t : State} (hv : v.getLsbD 0 = true) (h : execStart s = .next t) : HostLeaves s (.regWrite 0 v) t
  | answered {m : HostMove} (v : Word) (n : Nat) : HostLeaves s m { s.answer v with freeCtr := n }
  | configured (r : Nat) (v : Word) (hs : s.state ≠ .run) : HostLeaves s (.regWrite r v) (s.configWrite r v)
  | stored (a : Nat) (b : Byte) (hs : s.state ≠ .run) : HostLeaves s (.inWrite a b) (s.storeIn a b)

theorem HostLeaves.unchanged (s : State) (m : HostMove) : HostLeaves s m s := .answered s.hostData s.freeCtr

/-- A command word has bit 0 set (30 R97). -/
theorem getLsbD_zero_of_decodeCtrl {v : Word} {i : Instr} (h : decodeCtrl v = .ok i) : v.getLsbD 0 = true := by
  unfold decodeCtrl at h
  split at h
  next hv => simpa using congrArg (·.getLsbD 0) hv
  next => cases h

theorem HostLeaves.of_hostRegWrite {r : Nat} {v : Word} {s t : State} (h : hostRegWrite r v s = .next t) :
    HostLeaves s (.regWrite r v) t := by
  unfold hostRegWrite at h
  split at h
  next hr =>
    subst hr
    split at h
    next i hv =>
      rw [decodeCtrl_ok hv] at h
      exact .started (getLsbD_zero_of_decodeCtrl hv) h
    next =>
      cases h
      exact .unchanged s _
  next =>
    split at h <;> cases h
    next => exact .unchanged s _
    next hs => exact .configured r v hs

theorem HostLeaves.of_hostInWrite {a : Nat} {b : Byte} {s t : State} (h : hostInWrite a b s = .next t) :
    HostLeaves s (.inWrite a b) t := by
  unfold hostInWrite at h
  split at h <;> cases h
  split
  next => exact .unchanged s _
  next hs => exact .stored a b hs

/-- Every host's move that completes. -/
theorem HostLeaves.of_hostStep {m : HostMove} {s t : State} (h : hostStep m s = .next t) : HostLeaves s m t := by
  cases m with
  | reset => exact .reset h
  | regRead r =>
    cases h
    exact .answered (s.regRead r) s.freeCtr
  | regWrite r v => exact .of_hostRegWrite h
  | inRead a =>
    simp only [hostStep, hostInRead] at h
    split at h <;> cases h
    exact .answered ((s.inByte a).setWidth 32) s.freeCtr
  | inWrite a b => exact .of_hostInWrite h
  | outRead k =>
    simp only [hostStep, hostOutRead] at h
    split at h <;> cases h
    next x _ => exact .answered (x.setWidth 32) s.freeCtr
    next => exact .answered (Config.freeOutRead s.freeCtr) (s.freeCtr + 1)

/-- A step is an engine turn or a host's move, in a state that differs in the agenda alone. -/
theorem step_next {s t : State} (h : step s = .next t) :
    (∃ rest, s.engineTurn ∧ engineStep (s.setAgenda rest) = .next t) ∨
    (∃ m rest, s.hostMove? = some m ∧ HostLeaves (s.setAgenda rest) m t) := by
  rcases step_cases s with ⟨ha, e⟩ | ⟨rest, ha, e⟩ | ⟨m, rest, ha, e⟩ <;> rw [e] at h
  · refine .inl ⟨[], .inl ha, ?_⟩
    rw [← ha]
    exact h
  · exact .inl ⟨rest, .inr ⟨rest, ha⟩, h⟩
  · exact .inr ⟨m, rest, by rw [State.hostMove?, ha], .of_hostStep h⟩

end Sys2Proof.Machine
end

section
/-! Registers and the status word (10 §2, §3): reset, `EXPECT`, `STATUS`, and the transitions of `STATE`. -/
namespace Sys2Proof.Machine

/-- Settles O1: by evaluation. -/
theorem resetStateHoldsTheResetTable : Obligations.ResetStateHoldsTheResetTable := by
  unfold Obligations.ResetStateHoldsTheResetTable
  decide

/-- Settles O41: the stores are empty and the machine is idle. -/
theorem resetMeetsTheInvariant : Obligations.ResetMeetsTheInvariant where
  in_wf := Memory.wf_nil
  dict_wf := Memory.wf_nil
  out_wf := Memory.wf_nil
  err_iff := by decide
  run h := by cases h

theorem SameInput.refl (s : State) : SameInput s s := ⟨rfl, rfl, rfl, rfl, rfl, rfl⟩

theorem SameInput.trans {s u t : State} (h : SameInput s u) (h' : SameInput u t) : SameInput s t :=
  ⟨h'.mcs.trans h.mcs, h'.imgW.trans h.imgW, h'.imgH.trans h.imgH, h'.sbCount.trans h.sbCount, h'.inMem.trans h.inMem,
    h'.inEpoch.trans h.inEpoch⟩

theorem State.setAgenda_sameInput (s : State) (l : List Turn) : SameInput s (s.setAgenda l) := ⟨rfl, rfl, rfl, rfl, rfl, rfl⟩

theorem SameInput.n {s t : State} (h : SameInput s t) : t.n = s.n := congrArg BitVec.toNat h.mcs

theorem SameInput.expect {s t : State} (h : SameInput s t) : t.expect = s.expect := by
  simp only [State.expect, h.imgW, h.imgH]

/-- No code writes the input or the configuration. -/
theorem CodeLeaves.sameInput {s t : State} {i : Instr} (h : CodeLeaves s i t) : SameInput s t := by
  cases h with
  | cleared => exact ⟨rfl, rfl, rfl, rfl, rfl, rfl⟩
  | raised r he => exact ⟨rfl, rfl, rfl, rfl, rfl, rfl⟩
  | finished r hc => exact ⟨rfl, rfl, rfl, rfl, rfl, rfl⟩
  | first hp ho => exact ⟨rfl, rfl, rfl, rfl, rfl, rfl⟩
  | assigned hp hi ho h =>
    rcases State.emitAssign_next h with ⟨ho', -⟩ | ⟨-, -, -, -, -, -, -, hin, -⟩
    · exact absurd ho' ho
    · exact hin

/-- A code leaves `STATE` or halts. -/
theorem CodeLeaves.state {s t : State} {i : Instr} (h : CodeLeaves s i t) :
    t.state = s.state ∨ t.state = .done ∨ t.state = .error := by
  cases h with
  | cleared => exact .inl rfl
  | raised r he => exact .inr (.inr rfl)
  | finished r hc => exact .inr (.inl rfl)
  | first hp ho => exact .inl rfl
  | assigned hp hi ho h =>
    rcases State.emitAssign_next h with ⟨ho', -⟩ | ⟨-, -, -, -, -, hst, -⟩
    · exact absurd ho' ho
    · exact .inl hst

/-- An engine turn writes neither the input nor the configuration (20 R77). -/
theorem engineStep_sameInput {s t : State} (h : engineStep s = .next t) : SameInput s t := by
  by_cases hs : s.state = .run
  · have hf := (s.nextCode_frame s.width.toNat).1
    rcases engineStep_in_run hs h with rfl | ⟨i, -, hi⟩
    · exact hf.trans (State.raise_frame _ _).input
    · exact hf.trans hi.sameInput
  · rw [engineStep_outside_run hs h]
    exact .refl s

/-- An engine turn changes `STATE` from `RUN` alone, to `DONE` or `ERROR`. -/
theorem engineStep_state {s t : State} (h : engineStep s = .next t) :
    t.state = s.state ∨ (s.state = .run ∧ (t.state = .done ∨ t.state = .error)) := by
  by_cases hs : s.state = .run
  · rcases engineStep_in_run hs h with rfl | ⟨i, -, hi⟩
    · exact .inr ⟨hs, .inr rfl⟩
    · rcases hi.state with e | e
      · exact .inl (e.trans (s.nextCode_state _))
      · exact .inr ⟨hs, e⟩
  · exact .inl (congrArg _ (engineStep_outside_run hs h))

@[simp] theorem State.configWrite_state (s : State) (r : Nat) (v : Word) : (s.configWrite r v).state = s.state := by
  unfold State.configWrite
  split <;> rfl

/-- In `RUN` a host's move other than a reset writes neither the input nor the configuration (20 R77). -/
theorem HostLeaves.sameInput {s t : State} {m : HostMove} (h : HostLeaves s m t) (hs : s.state = .run) (hm : m ≠ .reset) :
    SameInput s t := by
  cases h with
  | reset h => exact absurd rfl hm
  | started hv h =>
    rcases execStart_next h with ⟨-, rfl⟩ | ⟨hn, -⟩ | ⟨hn, -⟩
    · exact .refl t
    · exact absurd hs hn
    · exact absurd hs hn
  | answered v n => exact ⟨rfl, rfl, rfl, rfl, rfl, rfl⟩
  | configured r v hn => exact absurd hs hn
  | stored a b hn => exact absurd hs hn

/-- A step in `RUN` other than a reset writes neither the input nor the configuration (20 R77). -/
theorem step_sameInput {s t : State} (hs : s.state = .run) (hm : s.hostMove? ≠ some .reset) (h : step s = .next t) :
    SameInput s t := by
  rcases step_next h with ⟨rest, -, h⟩ | ⟨m, rest, hm', h⟩
  · exact (s.setAgenda_sameInput rest).trans (engineStep_sameInput h)
  · exact (s.setAgenda_sameInput rest).trans (h.sameInput hs fun e => hm (e ▸ hm'))

/-- 10 R24: the product of two 16-bit numbers fits 32 bits. -/
theorem State.expect_toNat (s : State) :
    s.expect.toNat = s.imgW.toNat * s.imgH.toNat ∧ s.imgW.toNat * s.imgH.toNat ≤ 4294836225 := by
  have hw := s.imgW.isLt
  have hh := s.imgH.isLt
  have hle : s.imgW.toNat * s.imgH.toNat ≤ 65535 * 65535 := Nat.mul_le_mul (by omega) (by omega)
  refine ⟨?_, hle⟩
  simp only [State.expect, BitVec.toNat_mul, BitVec.toNat_setWidth]
  rw [Nat.mod_eq_of_lt (a := s.imgW.toNat) (by omega), Nat.mod_eq_of_lt (a := s.imgH.toNat) (by omega),
    Nat.mod_eq_of_lt (by omega)]

/-- A host's write to a register that stores nothing and takes no command is ignored (44 R183). -/
theorem hostRegWrite_ignored {r : Nat} {v : Word} {s : State} (hr : r ≠ 0) (hc : s.configWrite r v = s) :
    hostRegWrite r v s = .next s := by
  unfold hostRegWrite
  rw [if_neg hr, hc, ite_self]

/-- Settles O34: the product fits, register 5 stores nothing, and a step in `RUN` keeps `IMG_W` and `IMG_H`. -/
theorem expectIsTheExactProduct : Obligations.ExpectIsTheExactProduct := by
  refine ⟨fun s => ?_, fun s rest v ha => ?_, fun s t hs hm h => (step_sameInput hs hm h).expect⟩
  · obtain ⟨he, hle⟩ := s.expect_toNat
    exact ⟨he, he ▸ hle⟩
  · rw [step, ha]
    exact hostRegWrite_ignored (by decide) rfl

/-- The fields of a word made like `STATUS` (10 R27). -/
theorem status_word_fields (e : BitVec 3) (r : BitVec 2) :
    let w : Word := (e.setWidth 32 <<< 4) ||| r.setWidth 32
    w.extractLsb' 0 2 = r ∧ w.extractLsb' 2 2 = 0 ∧ w.extractLsb' 4 3 = e ∧ w.extractLsb' 7 25 = 0 := by
  revert e r
  decide

theorem RunState.toBits_eq_three (r : RunState) : r.toBits = 3 ↔ r = .error := by cases r <;> decide

theorem ErrCode.toBits_ne_zero (e : ErrCode) : e.toBits ≠ 0 ↔ e ≠ .none := by cases e <;> decide

/-- Settles O35: the fields are those of the word, and `ERR` against `STATE` is the machine's invariant. -/
theorem statusFields : Obligations.StatusFields := by
  have fields (s : State) := status_word_fields s.err.toBits s.state.toBits
  refine ⟨fun s => ?_, fun s hm => ?_, fun s rest ha => ?_, fun s rest v ha => ?_⟩
  · obtain ⟨hr, hlow, he, hhigh⟩ := fields s
    exact ⟨hr.trans (by cases s.state <;> rfl), hlow, he.trans (by cases s.err <;> rfl), hhigh⟩
  · obtain ⟨hr, -, he, -⟩ := fields s
    calc s.status.extractLsb' 4 3 ≠ 0 ↔ s.err.toBits ≠ 0 := by rw [State.status, he]
      _ ↔ s.err ≠ .none := s.err.toBits_ne_zero
      _ ↔ s.state = .error := hm.err_iff
      _ ↔ s.state.toBits = 3 := s.state.toBits_eq_three.symm
      _ ↔ s.status.extractLsb' 0 2 = 3 := by rw [State.status, hr]
  · rw [step, ha]
    rfl
  · rw [step, ha]
    exact hostRegWrite_ignored (by decide) rfl

/-- The transitions of `STATE` a host's move makes (10 R40). -/
theorem HostLeaves.state {s t : State} {m : HostMove} (h : HostLeaves s m t) (hne : t.state ≠ s.state) :
    (t.state = .idle ∧ m = .reset) ∨
    ((t.state = .run ∨ (t.state = .error ∧ t.err = .config ∧ s.state ≠ .run)) ∧
      ∃ v : Word, m = .regWrite 0 v ∧ v.getLsbD 0 = true) := by
  cases h with
  | reset h =>
    cases h
    exact .inl ⟨rfl, rfl⟩
  | started hv h =>
    refine .inr ⟨?_, _, rfl, hv⟩
    rcases execStart_next h with ⟨-, rfl⟩ | ⟨hn, rfl⟩ | ⟨-, -, -, -, rfl⟩
    · exact absurd rfl hne
    · exact .inr ⟨rfl, rfl, hn⟩
    · exact .inl rfl
  | answered v n => exact absurd rfl hne
  | configured r v hn => exact absurd (s.configWrite_state r v) hne
  | stored a b hn => exact absurd rfl hne

/-- Settles O45: an engine turn changes `STATE` from `RUN` alone; of the host's moves only RST and START change it. -/
theorem stateChangesOnlyAsListed : Obligations.StateChangesOnlyAsListed := by
  intro s t h hne
  rcases step_next h with ⟨rest, he, h⟩ | ⟨m, rest, hm, h⟩
  · obtain ⟨hs, ht⟩ := (engineStep_state h).resolve_left hne
    exact .inr (.inr (.inr ⟨hs, he, ht⟩))
  · rcases h.state hne with ⟨ht, rfl⟩ | ⟨ht, v, rfl, hv⟩
    · exact .inl ⟨ht, hm⟩
    · have hstart : s.hostStarts := ⟨v, hm, hv⟩
      rcases ht with ht | ⟨ht, herr, hs⟩
      · exact .inr (.inl ⟨ht, hstart⟩)
      · exact .inr (.inr (.inl ⟨ht, herr, hs, hstart⟩))

end Sys2Proof.Machine
end

section
/-! The dictionary (10 §5): the strings of bound codes, and what an assignment keeps of them. -/
namespace Sys2Proof.Machine

theorem State.not_lt_clear_of_assigned {s : State} {c : Code} (h : s.assigned c) : ¬c.toNat < clearCode s.n := by
  have := h.1
  simp only [firstFree] at this
  omega

theorem State.slot?_of_assigned {s : State} {c : Code} (h : s.assigned c) : s.slot? c = s.dict.read? c.toNat := if_pos h

/-! `First`, `Len` and `STR` of a base literal and of an assigned code (10 R42, R43). -/

theorem State.first?_literal {s : State} {c : Code} (h : c.toNat < clearCode s.n) : s.first? c = some c := if_pos h

theorem State.len?_literal {s : State} {c : Code} (h : c.toNat < clearCode s.n) : s.len? c = some 1 := if_pos h

theorem State.strWithin_literal {s : State} {c : Code} (f : Nat) (h : c.toNat < clearCode s.n) :
    s.strWithin (f + 1) c = some [c] := if_pos h

theorem State.first?_assigned {s : State} {c : Code} {e : DictEntry} (h : s.assigned c) (he : s.dict.read? c.toNat = some e) :
    s.first? c = some e.firstSym := by
  rw [State.first?, if_neg (State.not_lt_clear_of_assigned h), State.slot?_of_assigned h, he, Option.map_some]

theorem State.len?_assigned {s : State} {c : Code} {e : DictEntry} (h : s.assigned c) (he : s.dict.read? c.toNat = some e) :
    s.len? c = some e.len := by
  rw [State.len?, if_neg (State.not_lt_clear_of_assigned h), State.slot?_of_assigned h, he, Option.map_some]

theorem State.strWithin_assigned {s : State} {c : Code} {e : DictEntry} (f : Nat) (h : s.assigned c)
    (he : s.dict.read? c.toNat = some e) :
    s.strWithin (f + 1) c = (s.strWithin f e.prefixCode).map (· ++ [e.suffixSym]) := by
  rw [State.strWithin, if_neg (State.not_lt_clear_of_assigned h), State.slot?_of_assigned h, he]

/-- What 10 R42 to R44 say of the string `S` of a code `c`: its first symbol and its length are those recorded, and its symbols
are base literals. -/
structure StringOk (s : State) (c : Code) (S : List LzwSym) : Prop where
  first : ∃ f, s.first? c = some f ∧ S.head? = some f
  len : ∃ l, s.len? c = some l ∧ S.length = l.toNat
  symbols : ∀ x ∈ S, x.toNat < clearCode s.n

theorem StringOk.literal {s : State} {c : Code} (h : c.toNat < clearCode s.n) : StringOk s c [c] where
  first := ⟨c, State.first?_literal h, rfl⟩
  len := ⟨1, State.len?_literal h, rfl⟩
  symbols x hx := by rwa [List.mem_singleton.mp hx]

/-- The string of an assigned code from that of the code it extends (10 R43). -/
theorem StringOk.snoc {s : State} {c : Code} {e : DictEntry} {P : List LzwSym} (hc : s.assigned c)
    (he : s.dict.read? c.toNat = some e) (hs : SlotOk s c e) (hP : StringOk s e.prefixCode P) :
    StringOk s c (P ++ [e.suffixSym]) where
  first := by
    obtain ⟨f, hf, hhead⟩ := hP.first
    have hfe : f = e.firstSym := Option.some.inj (hf.symm.trans hs.first_eq)
    exact ⟨e.firstSym, State.first?_assigned hc he, by rw [List.head?_append, hhead, hfe]; rfl⟩
  len := by
    obtain ⟨l, hl, hlen⟩ := hP.len
    obtain ⟨l', hl', hsucc⟩ := hs.len_eq
    have hll : l = l' := Option.some.inj (hl.symm.trans hl')
    exact ⟨e.len, State.len?_assigned hc he, by rw [List.length_append, hlen, hll, hsucc]; rfl⟩
  symbols x hx := by
    rcases List.mem_append.mp hx with hx | hx
    · exact hP.symbols x hx
    · rw [List.mem_singleton.mp hx]
      exact hs.suffix_lt

/-- The chain of prefixes falls, so a bound code's string is read along at most as many links as its number (10 R44). -/
theorem DictInv.strWithin_stringOk {s : State} (hd : DictInv s) (f : Nat) (c : Code) (hb : s.bound c) (hf : c.toNat < f) :
    ∃ S, s.strWithin f c = some S ∧ StringOk s c S := by
  induction f generalizing c with
  | zero => omega
  | succ f ih =>
    rcases hb with hlit | hc
    · exact ⟨[c], State.strWithin_literal f hlit, .literal hlit⟩
    · obtain ⟨e, he, hs⟩ := hd c hc
      have hlt := hs.prefix_lt
      obtain ⟨P, hP, hok⟩ := ih e.prefixCode hs.prefix_bound (by omega)
      exact ⟨P ++ [e.suffixSym], by rw [State.strWithin_assigned f hc he, hP]; rfl, .snoc hc he hs hok⟩

/-- In a sound dictionary every bound code has its string (10 R42 to R44). -/
theorem DictInv.str?_stringOk {s : State} (hd : DictInv s) {c : Code} (hb : s.bound c) :
    ∃ S, s.str? c = some S ∧ StringOk s c S := hd.strWithin_stringOk dictSize c hb c.isLt

theorem DictInv.first?_lt {s : State} (hd : DictInv s) {c : Code} (hb : s.bound c) {f : LzwSym} (hf : s.first? c = some f) :
    f.toNat < clearCode s.n := by
  obtain ⟨S, -, hok⟩ := hd.str?_stringOk hb
  obtain ⟨f', hf', hhead⟩ := hok.first
  obtain rfl : f = f' := Option.some.inj (hf.symm.trans hf')
  exact hok.symbols f (List.mem_of_mem_head? hhead)

/-- The length of a bound code's string leaves room below `NEXT` for one symbol more (10 R44, 42 R158). -/
theorem DictInv.len?_le {s : State} (hd : DictInv s) (hn : firstFree s.n ≤ s.next.toNat) {c : Code} (hb : s.bound c)
    {l : BitVec 13} (hl : s.len? c = some l) : 1 ≤ l.toNat ∧ l.toNat + 1 + clearCode s.n ≤ s.next.toNat := by
  rcases hb with hlit | hc
  · obtain rfl : l = 1 := Option.some.inj (hl.symm.trans (State.len?_literal hlit))
    simp only [firstFree] at hn
    exact ⟨by decide, by simp; omega⟩
  · obtain ⟨e, he, hs⟩ := hd c hc
    obtain rfl : l = e.len := Option.some.inj (hl.symm.trans (State.len?_assigned hc he))
    have := hs.len_le
    have := hs.len_ge
    have := hc.2
    omega

/-- `t` has every bound code of `s`, with the same slot. -/
structure KeepsSlots (s t : State) : Prop where
  n : t.n = s.n
  next_le : s.next.toNat ≤ t.next.toNat
  slots : ∀ c : Code, s.assigned c → t.dict.read? c.toNat = s.dict.read? c.toNat

theorem KeepsSlots.of_sameDictionary {s t : State} (hm : t.mcs = s.mcs) (h : SameDictionary s t) : KeepsSlots s t :=
  ⟨congrArg BitVec.toNat hm, by rw [h.next], fun _ _ => by rw [h.dict]⟩

theorem KeepsSlots.of_assigned {s t : State} {p : Code} {x : LzwSym} (hn : t.n = s.n) (h : Assigned p x s t) :
    KeepsSlots s t where
  n := hn
  next_le := by rw [h.next]; split <;> omega
  slots c hc := h.others c.toNat (Nat.ne_of_lt hc.2)

theorem KeepsSlots.assigned {s t : State} (h : KeepsSlots s t) {c : Code} (hc : s.assigned c) : t.assigned c :=
  ⟨by rw [h.n]; exact hc.1, Nat.lt_of_lt_of_le hc.2 h.next_le⟩

theorem KeepsSlots.bound {s t : State} (h : KeepsSlots s t) {c : Code} (hb : s.bound c) : t.bound c :=
  hb.imp (fun hlit => by rwa [h.n]) h.assigned

theorem KeepsSlots.slot?_eq {s t : State} (h : KeepsSlots s t) {c : Code} (hc : s.assigned c) : t.slot? c = s.slot? c := by
  rw [State.slot?_of_assigned (h.assigned hc), State.slot?_of_assigned hc, h.slots c hc]

theorem KeepsSlots.first?_eq {s t : State} (h : KeepsSlots s t) {c : Code} (hb : s.bound c) : t.first? c = s.first? c := by
  rcases hb with hlit | hc
  · rw [State.first?_literal hlit, State.first?_literal (h.n ▸ hlit)]
  · rw [State.first?, State.first?, h.n, h.slot?_eq hc]

theorem KeepsSlots.len?_eq {s t : State} (h : KeepsSlots s t) {c : Code} (hb : s.bound c) : t.len? c = s.len? c := by
  rcases hb with hlit | hc
  · rw [State.len?_literal hlit, State.len?_literal (h.n ▸ hlit)]
  · rw [State.len?, State.len?, h.n, h.slot?_eq hc]

theorem KeepsSlots.slotOk {s t : State} (h : KeepsSlots s t) {c : Code} {e : DictEntry} (hs : SlotOk s c e) : SlotOk t c e where
  prefix_lt := hs.prefix_lt
  prefix_bound := h.bound hs.prefix_bound
  suffix_lt := by rw [h.n]; exact hs.suffix_lt
  first_lt := by rw [h.n]; exact hs.first_lt
  first_eq := (h.first?_eq hs.prefix_bound).trans hs.first_eq
  len_eq := by rw [h.len?_eq hs.prefix_bound]; exact hs.len_eq
  len_ge := hs.len_ge
  len_le := by rw [h.n]; exact hs.len_le

/-- A bound code's string is read along slots of bound codes alone. -/
theorem KeepsSlots.strWithin_eq {s t : State} (h : KeepsSlots s t) (hd : DictInv s) (f : Nat) {c : Code} (hb : s.bound c) :
    t.strWithin f c = s.strWithin f c := by
  induction f generalizing c with
  | zero => rfl
  | succ f ih =>
    rcases hb with hlit | hc
    · rw [State.strWithin_literal f hlit, State.strWithin_literal f (h.n ▸ hlit)]
    · obtain ⟨e, he, hs⟩ := hd c hc
      rw [State.strWithin_assigned f hc he, State.strWithin_assigned f (h.assigned hc) ((h.slots c hc).trans he),
        ih hs.prefix_bound]

/-- Every code but CLR keeps every bound code's slot (10 R42). -/
theorem CodeLeaves.keepsSlots {s t : State} {i : Instr} (h : CodeLeaves s i t) (hi : i ≠ .clr) : KeepsSlots s t := by
  cases h with
  | cleared => exact absurd rfl hi
  | raised r he => exact .of_sameDictionary rfl ⟨rfl, rfl, rfl, rfl⟩
  | finished r hc => exact .of_sameDictionary rfl ⟨rfl, rfl, rfl, rfl⟩
  | first hp ho => exact ⟨rfl, le_rfl, fun _ _ => rfl⟩
  | assigned hp hsend ho h =>
    rcases State.emitAssign_next h with ⟨ho', -⟩ | ⟨-, -, ha, -, -, -, -, hin, -⟩
    · exact absurd ho' ho
    · exact .of_assigned hin.n ha

/-- Settles O27, by induction along the falling chain of prefixes. -/
theorem everyBoundCodeHasAString : Obligations.EveryBoundCodeHasAString := by
  intro s c hr hb
  obtain ⟨S, hS, hok⟩ := hr.dict.str?_stringOk hb
  obtain ⟨f, hf, hhead⟩ := hok.first
  obtain ⟨l, hl, hlen⟩ := hok.len
  obtain ⟨hpos, hroom⟩ := hr.dict.len?_le hr.next_ge hb hl
  have hclear : 2 ^ 1 ≤ clearCode s.n := Nat.pow_le_pow_right (by decide) hr.n_ge
  have hnext := hr.next_le
  simp only [dictSize] at hnext
  exact ⟨S, l, hS, hl, hlen, by omega, by omega, hhead.trans hf.symm, hok.symbols⟩

/-- Settles O29: the codes in question keep the slots along which a bound code's string is read. -/
theorem boundStringsNeverChange : Obligations.BoundStringsNeverChange := by
  intro s t i c hr h hi hb
  have hcode : i ≠ .clr ∧ i ≠ .start ∧ i ≠ .rst := by
    rcases hi with rfl | ⟨k, rfl | rfl | rfl⟩ | rfl <;> simp
  obtain ⟨hclr, hstart, hrst⟩ := hcode
  have hk := (CodeLeaves.of_exec h hstart hrst).keepsSlots hclr
  exact ⟨hk.bound hb, hk.strWithin_eq hr.dict dictSize hb⟩

end Sys2Proof.Machine
end

section
/-! The invariant of a running engine, in four parts that the operations touch separately: what START tested, the dictionary
engine, the output, the bit reader. -/
namespace Sys2Proof.Machine

/-- START's tests (44 R181). -/
structure ConfigInv (s : State) : Prop where
  n_ge : nMin ≤ s.n
  n_le : s.n ≤ nMax
  expect_le : s.expect.toNat ≤ s.cfg.outCap.toNat
  count_le_max : s.sbCount.toNat ≤ s.cfg.sbMax

/-- `WIDTH`, `NEXT`, `PREV` and `DICT` (10 R35 to R44). -/
structure EngineInv (s : State) : Prop where
  width_ge : s.n + 1 ≤ s.width.toNat
  width_le : s.width.toNat ≤ codeMaxW
  next_ge : firstFree s.n ≤ s.next.toNat
  next_le : s.next.toNat ≤ dictSize
  width_next : WidthRelation s
  no_prev : s.prev = none → s.next.toNat = firstFree s.n
  prev_bound : ∀ p, s.prev = some p → s.bound p
  dict : DictInv s

/-- `OUT_COUNT` and the entries of `OUT` (10 R28, 43 R171, R174). -/
structure OutputInv (s : State) : Prop where
  out_le : s.outCount.toNat ≤ s.expect.toNat
  out_lt : ∀ k < s.outCount.toNat, ∃ x, s.out.read? k = some x ∧ x.toNat < clearCode s.n

theorem runInv_iff (s : State) : RunInv s ↔ ConfigInv s ∧ EngineInv s ∧ OutputInv s ∧ ReaderInv s := by
  constructor
  · intro h
    exact ⟨⟨h.n_ge, h.n_le, h.expect_le, h.count_le_max⟩,
      ⟨h.width_ge, h.width_le, h.next_ge, h.next_le, h.width_next, h.no_prev, h.prev_bound, h.dict⟩,
      ⟨h.out_le, h.out_lt⟩, h.reader⟩
  · rintro ⟨hc, he, ho, hr⟩
    exact ⟨hc.n_ge, hc.n_le, hc.expect_le, hc.count_le_max, he.width_ge, he.width_le, he.next_ge, he.next_le, he.width_next,
      he.no_prev, he.prev_bound, he.dict, ho.out_le, ho.out_lt, hr⟩

/-! Each part under a change of the rest. -/

theorem ConfigInv.congr {s t : State} (h : ConfigInv s) (hin : SameInput s t) (hcfg : t.cfg = s.cfg) : ConfigInv t :=
  ⟨hin.n ▸ h.n_ge, hin.n ▸ h.n_le, by rw [hin.expect, hcfg]; exact h.expect_le, by rw [hin.sbCount, hcfg]; exact h.count_le_max⟩

theorem DictInv.congr {s t : State} (h : DictInv s) (hm : t.mcs = s.mcs) (hd : SameDictionary s t) : DictInv t := by
  have hk := KeepsSlots.of_sameDictionary hm hd
  intro c hc
  obtain ⟨e, he, hs⟩ := h c ⟨hk.n ▸ hc.1, hd.next ▸ hc.2⟩
  exact ⟨e, by rw [hd.dict, he], hk.slotOk hs⟩

theorem EngineInv.congr {s t : State} (h : EngineInv s) (hm : t.mcs = s.mcs) (hd : SameDictionary s t) : EngineInv t := by
  have hk := KeepsSlots.of_sameDictionary hm hd
  refine ⟨?_, ?_, ?_, ?_, ?_, ?_, fun p hp => hk.bound (h.prev_bound p (hd.prev ▸ hp)), h.dict.congr hm hd⟩
  · rw [hk.n, hd.width]; exact h.width_ge
  · rw [hd.width]; exact h.width_le
  · rw [hk.n, hd.next]; exact h.next_ge
  · rw [hd.next]; exact h.next_le
  · rw [WidthRelation, hk.n, hd.width, hd.next]; exact h.width_next
  · rw [hk.n, hd.prev, hd.next]; exact h.no_prev

theorem OutputInv.congr {s t : State} (h : OutputInv s) (hin : SameInput s t) (ho : SameOutput s t) : OutputInv t where
  out_le := by rw [ho.outCount, hin.expect]; exact h.out_le
  out_lt := by rw [ho.outCount, ho.out, hin.n]; exact h.out_lt

theorem ReaderOk.congr {s t : State} {r : BitReader} (h : ReaderOk s r) (hin : SameInput s t) : ReaderOk t r := by
  have hbyte : t.inByte = s.inByte := by
    funext a
    rw [State.inByte, State.inByte, hin.inMem, hin.inEpoch]
  have hlen : t.sbLen = s.sbLen := by
    funext i
    rw [State.sbLen, State.sbLen, hbyte]
  have hcons : t.consumedAt r = s.consumedAt r := by rw [State.consumedAt, State.consumedAt, hlen]
  have hbytes : t.inBytes = s.inBytes := by
    have hsb : t.sbByte = s.sbByte := by
      funext i j
      rw [State.sbByte, State.sbByte, hbyte]
    have : t.sbPayload = s.sbPayload := by
      funext i
      rw [State.sbPayload, State.sbPayload, hlen, hsb]
    rw [State.inBytes, State.inBytes, this, hin.sbCount]
  obtain ⟨⟨hidx, hoff, hend⟩, hn, ha, hle, hp⟩ := h
  rw [← hin.sbCount] at hidx hoff hend
  rw [← hlen] at hoff
  rw [← hcons] at hle hp
  rw [← hbytes] at hp
  exact ⟨⟨hidx, hoff, hend⟩, hn, ha, hle, hp⟩

theorem ReaderInv.congr {s t : State} (h : ReaderInv s) (hin : SameInput s t) (hr : t.reader = s.reader) : ReaderInv t := by
  rw [readerInv_iff] at h ⊢
  rw [hr]
  exact h.congr hin

/-- The same registers and stores of a run, whatever the surroundings hold. -/
theorem RunInv.congr {s t : State} (h : RunInv s) (hin : SameInput s t) (hcfg : t.cfg = s.cfg) (hd : SameDictionary s t)
    (ho : SameOutput s t) (hr : ReaderInv t) : RunInv t := by
  obtain ⟨hc, he, ho', -⟩ := (runInv_iff s).mp h
  exact (runInv_iff t).mpr ⟨hc.congr hin hcfg, he.congr hin.mcs hd, ho'.congr hin ho, hr⟩

/-! The bit reader. -/

/-- The empty reader stands at position 0 (10 R50). -/
theorem ReaderOk.empty (s : State) : ReaderOk s .empty where
  cur := ⟨Nat.zero_le _, fun _ => Nat.zero_le _, fun _ => rfl⟩
  nbits_le := by decide
  acc_lt := by decide
  nle := Nat.zero_le _
  pending i hi := absurd hi (Nat.not_lt_zero i)

/-- The fetch keeps the reader's invariant (40 R121 to R124). -/
theorem ReaderInv.nextCode {s : State} (h : ReaderInv s) {w : Nat} (hw : w ≤ 12) : ReaderInv (s.nextCode w).2 := by
  have hok := (readerInv_iff s).mp h
  have hrefill : ReaderOk s (s.refill w s.reader) := (s.refillWithin_spec w 2 hw s.reader hok (by omega)).1
  rcases s.nextCode_eq w with ⟨e, -⟩ | ⟨e, hn⟩ <;> rw [e, readerInv_setReader_iff]
  · exact hrefill
  · exact (BitReader.dropBits_spec s w hw _ hrefill hn).1

theorem RunInv.nextCode {s : State} (h : RunInv s) : RunInv (s.nextCode s.width.toNat).2 := by
  obtain ⟨hin, hsur, hd, ho, -, -⟩ := s.nextCode_frame s.width.toNat
  exact h.congr hin hsur.cfg hd ho (h.reader.nextCode h.width_le)

/-! The dictionary engine. -/

/-- Where no code is assigned nothing is required of `DICT`. -/
theorem dictInv_of_next_eq {s : State} (h : s.next.toNat = firstFree s.n) : DictInv s := fun c hc =>
  absurd hc.2 (by have := hc.1; omega)

/-- The dictionary CLR and START leave (41 R141, 44 R181); for `n = 1` it is case (c) of 10 R39. -/
theorem ConfigInv.clearDict {s : State} (h : ConfigInv s) : EngineInv s.clearDict := by
  have hlow := h.n_ge
  have hhigh := h.n_le
  have htrack := s.clearDict_track hhigh
  have hw : s.clearDict.width.toNat = s.n + 1 := congrArg Track.width htrack
  have hx : s.clearDict.next.toNat = firstFree s.n := congrArg Track.next htrack
  have hpow : clearCode s.n ≤ 2 ^ 11 := Nat.pow_le_pow_right (by decide) hhigh
  simp only [nMin, nMax] at hlow hhigh
  refine ⟨?_, ?_, ?_, ?_, ?_, fun _ => hx, fun p hp => (by cases hp), dictInv_of_next_eq hx⟩
  · rw [hw, State.clearDict_n]
  · rw [hw, codeMaxW]; omega
  · rw [hx, State.clearDict_n]
  · rw [hx, firstFree, dictSize]; omega
  · rw [WidthRelation, hw, hx, State.clearDict_n]
    rcases Nat.lt_or_ge s.n 2 with hn | hn
    · obtain h1 : s.n = 1 := by omega
      rw [h1]
      exact .inr (.inr ⟨rfl, rfl, rfl⟩)
    · left
      have : 2 ^ 2 ≤ 2 ^ s.n := Nat.pow_le_pow_right (by decide) hn
      rw [firstFree, clearCode, Nat.pow_succ]
      omega

/-- The slot an assignment binds is sound (10 R43, R44). -/
theorem EngineInv.newSlotOk {s t : State} {p : Code} {x : LzwSym} {f : LzwSym} {l : BitVec 13} {c : Code} (h : EngineInv s)
    (hk : KeepsSlots s t) (hp : s.bound p) (hx : x.toNat < clearCode s.n) (hf : s.first? p = some f) (hl : s.len? p = some l)
    (hc : c.toNat = s.next.toNat) : SlotOk t c ⟨p, x, f, l + 1⟩ := by
  obtain ⟨hpos, hroom⟩ := h.dict.len?_le h.next_ge hp hl
  have hge := h.next_ge
  have hle := h.next_le
  simp only [firstFree, dictSize] at hge hle
  have hl1 : (l + 1).toNat = l.toNat + 1 := by
    rw [BitVec.toNat_add]
    exact Nat.mod_eq_of_lt (by simp; omega)
  refine ⟨?_, hk.bound hp, by rwa [hk.n], by rw [hk.n]; exact h.dict.first?_lt hp hf, (hk.first?_eq hp).trans hf,
    ⟨l, (hk.len?_eq hp).trans hl, hl1⟩, by rw [hl1]; omega, by rw [hl1, hk.n, hc]; exact hroom⟩
  rcases hp with hlit | hasg
  · show p.toNat < c.toNat
    omega
  · rw [hc]
    exact hasg.2

/-- An assignment keeps every slot and binds a sound one (42 R154 to R156). -/
theorem EngineInv.dictInv_assigned {s t : State} {p : Code} {x : LzwSym} (h : EngineInv s) (hn : t.n = s.n)
    (ha : Assigned p x s t) (hp : s.bound p) (hx : x.toNat < clearCode s.n) : DictInv t := by
  have hk := KeepsSlots.of_assigned hn ha
  intro c hc
  rcases Nat.lt_or_ge c.toNat s.next.toNat with hlt | hge
  · obtain ⟨e, he, hs⟩ := h.dict c ⟨hk.n ▸ hc.1, hlt⟩
    exact ⟨e, (ha.others _ (by omega)).trans he, hk.slotOk hs⟩
  · have hroom : s.next.toNat < dictSize := Nat.lt_of_le_of_lt hge c.isLt
    have hnext := ha.next
    rw [if_pos hroom] at hnext
    have hcn : c.toNat = s.next.toNat := by have := hc.2; omega
    obtain ⟨f, l, hf, hl, he⟩ := ha.slot hroom
    exact ⟨_, by rw [hcn]; exact he, h.newSlotOk hk hp hx hf hl hcn⟩

/-- `GrowWidth` keeps `WIDTH` the width of `NEXT` (10 R39, 42 R155, R157). -/
theorem EngineInv.widthRelation_assigned {s t : State} {p : Code} {x : LzwSym} (h : EngineInv s) (hn : t.n = s.n)
    (ha : Assigned p x s t) : WidthRelation t := by
  have hnext := ha.next
  have hwidth := ha.width
  have hw := h.width_le
  have hrel := h.width_next
  have hpow : 2 ^ (s.width.toNat + 1) = 2 * 2 ^ s.width.toNat := Nat.pow_succ'
  have hpos : 0 < 2 ^ s.width.toNat := Nat.two_pow_pos _
  simp only [WidthRelation, codeMaxW, dictSize] at *
  by_cases hroom : s.next.toNat < 4096
  · rw [if_pos hroom] at hnext
    by_cases hgrow : 2 ^ s.width.toNat - 1 < s.next.toNat + 1 ∧ s.width.toNat < 12
    · rw [if_pos ⟨hroom, hgrow⟩] at hwidth
      rw [hnext, hwidth, hpow]
      rcases hrel with hrel | hrel | ⟨-, hw2, hn4⟩
      · omega
      · omega
      · rw [hw2]
        omega
    · rw [if_neg fun hg => hgrow hg.2] at hwidth
      rw [hnext, hwidth]
      rcases Nat.lt_or_ge s.width.toNat 12 with hlt | hge
      · omega
      · obtain hw12 : s.width.toNat = 12 := by omega
        rw [hw12] at hrel ⊢
        omega
  · rw [if_neg hroom] at hnext
    rw [if_neg fun hg => hroom hg.1] at hwidth
    rw [hnext, hwidth, hn]
    exact hrel

theorem EngineInv.assigned {s t : State} {p c : Code} {x : LzwSym} (h : EngineInv s) (hn : t.n = s.n) (ha : Assigned p x s t)
    (hp : s.bound p) (hx : x.toNat < clearCode s.n) (hprev : t.prev = some c) (hc : t.bound c) : EngineInv t := by
  have hk := KeepsSlots.of_assigned hn ha
  have hwge := h.width_ge
  have hwle := h.width_le
  have hnext := ha.next
  have hnle := h.next_le
  have hwidth := ha.width
  refine ⟨?_, ?_, ?_, ?_, h.widthRelation_assigned hn ha, fun e => ?_, fun q hq => ?_, h.dictInv_assigned hn ha hp hx⟩
  · rw [hn, hwidth]
    split <;> omega
  · rw [hwidth]
    split <;> omega
  · rw [hn]
    exact h.next_ge.trans hk.next_le
  · rw [hnext]
    split <;> omega
  · rw [hprev] at e
    cases e
  · obtain rfl : c = q := Option.some.inj (hprev.symm.trans hq)
    exact hc

/-! The output. -/

/-- Emission within the count of indices below `2^n` (43 R170, R171). -/
theorem OutputInv.emitted {s t : State} {S : List LzwSym} (h : OutputInv s) (hin : SameInput s t) (he : Emitted S s t)
    (ho : ¬s.overflows S.length) (hS : ∀ x ∈ S, x.toNat < clearCode s.n) : OutputInv t where
  out_le := by
    rw [he.count, hin.expect]
    exact Nat.le_of_not_lt ho
  out_lt k hk := by
    rw [hin.n]
    rcases Nat.lt_or_ge k s.outCount.toNat with hlt | hge
    · rw [he.others k (.inl hlt)]
      exact h.out_lt k hlt
    · obtain ⟨i, rfl⟩ := Nat.exists_eq_add_of_le hge
      have hi : i < S.length := by have := he.count; omega
      exact ⟨S[i], (he.entries i hi).trans (List.getElem?_eq_getElem hi), hS _ (List.getElem_mem hi)⟩

/-! What a well-formed code emits, assigns and makes the predecessor. -/

theorem Sends.symbols {s : State} {i : Instr} {S : List LzwSym} {x : LzwSym} {c : Code} (h : Sends s i S x c) (hr : RunInv s)
    (hw : i.wf s.ctx = true) : (∀ y ∈ S, y.toNat < clearCode s.n) ∧ x.toNat < clearCode s.n := by
  have known {c : Code} {S : List LzwSym} {f : LzwSym} (hb : s.bound c) (hS : s.str? c = some S) (hf : s.first? c = some f) :
      (∀ y ∈ S, y.toNat < clearCode s.n) ∧ f.toNat < clearCode s.n := by
    obtain ⟨S', hS', hok⟩ := hr.dict.str?_stringOk hb
    obtain rfl : S = S' := Option.some.inj (hS.symm.trans hS')
    exact ⟨hok.symbols, hr.dict.first?_lt hb hf⟩
  cases h with
  | lit =>
    have hx : x.toNat < clearCode s.n := of_decide_eq_true hw
    exact ⟨fun y hy => by rwa [List.mem_singleton.mp hy], hx⟩
  | ref hS hf =>
    simp only [Instr.wf, Bool.and_eq_true, decide_eq_true_eq] at hw
    exact known (.inr ⟨hw.1.2, hw.2⟩) hS hf
  | kwk hp hroom hS hf =>
    obtain ⟨hsym, hfirst⟩ := known (hr.prev_bound _ hp) hS hf
    refine ⟨fun y hy => ?_, hfirst⟩
    rcases List.mem_append.mp hy with hy | hy
    · exact hsym y hy
    · rwa [List.mem_singleton.mp hy]

theorem Sends.bound_after {s t : State} {i : Instr} {S : List LzwSym} {p : Code} {x : LzwSym} {c : Code} (h : Sends s i S x c)
    (hr : RunInv s) (hw : i.wf s.ctx = true) (hn : t.n = s.n) (ha : Assigned p x s t) : t.bound c := by
  have hk := KeepsSlots.of_assigned hn ha
  cases h with
  | lit => exact hk.bound (.inl (of_decide_eq_true hw))
  | ref hS hf =>
    simp only [Instr.wf, Bool.and_eq_true, decide_eq_true_eq] at hw
    exact hk.bound (.inr ⟨hw.1.2, hw.2⟩)
  | kwk hp hroom hS hf =>
    have hroom : s.next.toNat < dictSize := Nat.lt_of_not_le hroom
    have hc : (s.next.setWidth 12).toNat = s.next.toNat := by
      rw [BitVec.toNat_setWidth]
      exact Nat.mod_eq_of_lt hroom
    have hnext := ha.next
    rw [if_pos hroom] at hnext
    exact .inr ⟨by rw [hc, hn]; exact hr.next_ge, by rw [hc, hnext]; omega⟩

/-- A well-formed code that leaves the engine in `RUN` keeps the running engine's invariant. -/
theorem CodeLeaves.runInv {s t : State} {i : Instr} (h : CodeLeaves s i t) (hr : RunInv s) (hw : i.wf s.ctx = true)
    (ht : t.state = .run) : RunInv t := by
  obtain ⟨hc, he, ho', hrd⟩ := (runInv_iff s).mp hr
  have hin := h.sameInput
  cases h with
  | cleared =>
    exact (runInv_iff _).mpr ⟨hc.congr hin rfl, hc.clearDict, ho'.congr hin ⟨rfl, rfl⟩, hrd.congr hin rfl⟩
  | raised r he => cases ht
  | finished r hc => cases ht
  | @first k hp ho =>
    have hk : k.toNat < clearCode s.n := of_decide_eq_true hw
    have hS : ∀ x ∈ [k], x.toNat < clearCode s.n := fun x hx => by rwa [List.mem_singleton.mp hx]
    have hem := s.emit_emitted [k] ho
    have hem' : Emitted [k] s ((s.emit [k]).setPrev k) := ⟨hem.count, hem.entries, hem.others⟩
    have hks : KeepsSlots s ((s.emit [k]).setPrev k) := ⟨rfl, le_rfl, fun _ _ => rfl⟩
    refine (runInv_iff _).mpr ⟨hc.congr hin rfl, ⟨he.width_ge, he.width_le, he.next_ge, he.next_le, he.width_next, ?_, ?_, ?_⟩,
      ho'.emitted hin hem' ho hS, hrd.congr hin rfl⟩
    · intro e
      cases e
    · intro q hq
      cases hq
      exact .inl hk
    · exact dictInv_of_next_eq (he.no_prev hp)
  | assigned hp hsend ho h =>
    rcases State.emitAssign_next h with ⟨ho', -⟩ | ⟨-, hem, ha, hprev, hrdr, -, -, -, hsur⟩
    · exact absurd ho' ho
    · obtain ⟨hS, hx⟩ := hsend.symbols hr hw
      exact (runInv_iff _).mpr ⟨hc.congr hin hsur.cfg,
        he.assigned hin.n ha (he.prev_bound _ hp) hx hprev (hsend.bound_after hr hw hin.n ha),
        ho'.emitted hin hem ho hS, hrd.congr hin hrdr⟩

end Sys2Proof.Machine
end

section
/-! The invariant of the machine: canonical stores, `ERR` against `STATE`, and the running engine's invariant, over every turn. -/
namespace Sys2Proof.Machine

/-- The three stores are canonical (20 R60, R67). -/
structure StoresWf (s : State) : Prop where
  in_wf : s.inMem.wf
  dict_wf : s.dict.wf
  out_wf : s.out.wf

theorem MachineInv.stores {s : State} (h : MachineInv s) : StoresWf s := ⟨h.in_wf, h.dict_wf, h.out_wf⟩

theorem machineInv_of_stores {s : State} (hw : StoresWf s) (he : s.err ≠ .none ↔ s.state = .error)
    (hr : s.state = .run → RunInv s) : MachineInv s := ⟨hw.in_wf, hw.dict_wf, hw.out_wf, he, hr⟩

/-- Emission and assignment write the stores by their own writes alone. -/
theorem StoresWf.emitAssign {s t : State} {S : List LzwSym} {p : Code} {x : LzwSym} {c : Code} (h : StoresWf s)
    (ht : s.emitAssign S p x c = .next t) : StoresWf t := by
  have hout := Memory.wf_writeList s.out s.outCount.toNat S h.out_wf
  rcases s.emitAssign_cases S p x c with ⟨-, e⟩ | ⟨-, u, hu, e⟩ | ⟨-, -, e⟩ <;> rw [e] at ht <;> cases ht
  · exact ⟨h.in_wf, h.dict_wf, h.out_wf⟩
  · rcases (s.emit S).assign?_cases p x with ⟨-, e⟩ | ⟨-, f, l, -, -, e⟩ | ⟨-, -, e⟩ <;> rw [e] at hu <;> cases hu
    · exact ⟨h.in_wf, h.dict_wf, hout⟩
    · exact ⟨by simpa using h.in_wf, by simpa using Memory.wf_write s.dict s.next.toNat _ h.dict_wf, by simpa using hout⟩

/-- Every code keeps the stores canonical. -/
theorem CodeLeaves.storesWf {s t : State} {i : Instr} (h : CodeLeaves s i t) (hw : StoresWf s) : StoresWf t := by
  cases h with
  | cleared => exact ⟨hw.in_wf, hw.dict_wf, hw.out_wf⟩
  | raised r he => exact ⟨hw.in_wf, hw.dict_wf, hw.out_wf⟩
  | finished r hc => exact ⟨hw.in_wf, hw.dict_wf, hw.out_wf⟩
  | first hp ho => exact ⟨hw.in_wf, hw.dict_wf, Memory.wf_writeList _ _ _ hw.out_wf⟩
  | assigned hp hi ho h => exact hw.emitAssign h

/-- `ERR` names a cause exactly where a code halts in `ERROR` (10 R27, 60 R200). -/
theorem CodeLeaves.err_iff {s t : State} {i : Instr} (h : CodeLeaves s i t) (hs : s.state = .run)
    (he : s.err ≠ .none ↔ s.state = .error) : t.err ≠ .none ↔ t.state = .error := by
  cases h with
  | cleared => exact he
  | raised r hne => exact iff_of_true hne rfl
  | finished r hc =>
    rw [hs] at he
    exact he.trans (iff_of_false (by decide) (by simp))
  | first hp ho => exact he
  | assigned hp hi ho h =>
    rcases State.emitAssign_next h with ⟨ho', -⟩ | ⟨-, -, -, -, -, hst, herr, -, -⟩
    · exact absurd ho' ho
    · rw [hst, herr]
      exact he

/-- A halt with a cause keeps the invariant. -/
theorem MachineInv.raise {s : State} (hw : StoresWf s) {e : ErrCode} (he : e ≠ .none) : MachineInv (s.raise e) :=
  machineInv_of_stores ⟨hw.in_wf, hw.dict_wf, hw.out_wf⟩ (iff_of_true he rfl) fun h => by cases h

theorem MachineInv.nextCode {s : State} (h : MachineInv s) (hs : s.state = .run) : MachineInv (s.nextCode s.width.toNat).2 := by
  obtain ⟨hin, -, hd, ho, hst, herr⟩ := s.nextCode_frame s.width.toNat
  refine machineInv_of_stores ⟨?_, ?_, ?_⟩ (by rw [hst, herr]; exact h.err_iff) fun _ => (h.run hs).nextCode
  · rw [hin.inMem]; exact h.in_wf
  · rw [hd.dict]; exact h.dict_wf
  · rw [ho.out]; exact h.out_wf

theorem CodeLeaves.machineInv {s t : State} {i : Instr} (h : CodeLeaves s i t) (hm : MachineInv s) (hs : s.state = .run)
    (hw : i.wf s.ctx = true) : MachineInv t :=
  machineInv_of_stores (h.storesWf hm.stores) (h.err_iff hs hm.err_iff) (h.runInv (hm.run hs) hw)

/-- An engine turn: the fetch, then the code's effect. -/
theorem MachineInv.engineStep {s t : State} (hm : MachineInv s) (h : engineStep s = .next t) : MachineInv t := by
  by_cases hs : s.state = .run
  · have hu := hm.nextCode hs
    rcases engineStep_in_run hs h with rfl | ⟨i, hw, hi⟩
    · exact .raise hu.stores (by decide)
    · exact hi.machineInv hu ((s.nextCode_state _).trans hs) hw
  · rwa [engineStep_outside_run hs h]

/-- The state START leaves when its tests pass (44 R181). -/
theorem ConfigInv.beginRun {s : State} (h : ConfigInv s) (h0 : s.outCount = 0) : RunInv s.beginRun := by
  have hin : SameInput s s.beginRun := ⟨rfl, rfl, rfl, rfl, rfl, rfl⟩
  have hzero : s.beginRun.outCount.toNat = 0 := by rw [State.beginRun_outCount, h0]; rfl
  refine (runInv_iff _).mpr ⟨h.congr hin rfl, h.clearDict.congr rfl ⟨rfl, rfl, rfl, rfl⟩, ⟨?_, fun k hk => ?_⟩,
    (readerInv_iff _).mpr (.empty _)⟩
  · rw [hzero]
    exact Nat.zero_le _
  · rw [hzero] at hk
    exact absurd hk (Nat.not_lt_zero k)

theorem MachineInv.execStart {s t : State} (hm : MachineInv s) (h : execStart s = .next t) : MachineInv t := by
  have hw : StoresWf s.clearResult := ⟨hm.in_wf, hm.dict_wf, hm.out_wf⟩
  rcases execStart_next h with ⟨-, rfl⟩ | ⟨-, rfl⟩ | ⟨-, hmcs, hbig, hmany, rfl⟩
  · exact hm
  · exact .raise hw (by decide)
  · simp only [State.badMcs, State.tooBig, State.tooMany] at hmcs hbig hmany
    have hc : ConfigInv s.clearResult :=
      ⟨Nat.le_of_not_lt fun hl => hmcs (.inl hl), Nat.le_of_not_lt fun hl => hmcs (.inr hl), Nat.le_of_not_lt hbig,
        Nat.le_of_not_lt hmany⟩
    exact machineInv_of_stores ⟨hw.in_wf, hw.dict_wf, hw.out_wf⟩ (by simp) fun _ => hc.beginRun rfl

/-- A change outside `RUN` that keeps `STATE`, `ERR` and canonical stores. -/
theorem MachineInv.outside_run {s t : State} (hm : MachineInv s) (hs : s.state ≠ .run) (hst : t.state = s.state)
    (herr : t.err = s.err) (hw : StoresWf t) : MachineInv t :=
  machineInv_of_stores hw (by rw [hst, herr]; exact hm.err_iff) fun h => absurd (hst.symm.trans h) hs

/-- A register write touches no store and neither `STATE` nor `ERR` (44 R183). -/
theorem State.configWrite_frame (s : State) (r : Nat) (v : Word) :
    (s.configWrite r v).err = s.err ∧ (s.configWrite r v).inMem = s.inMem ∧ (s.configWrite r v).dict = s.dict ∧
      (s.configWrite r v).out = s.out := by
  unfold State.configWrite
  split <;> exact ⟨rfl, rfl, rfl, rfl⟩

/-- The model's own fields are no part of the invariant. -/
theorem MachineInv.surroundings {s : State} (hm : MachineInv s) (l : List Turn) (v : Word) (m : Nat) :
    MachineInv { (s.setAgenda l).answer v with freeCtr := m } :=
  machineInv_of_stores ⟨hm.in_wf, hm.dict_wf, hm.out_wf⟩ hm.err_iff fun hs =>
    have hin : SameInput s { (s.setAgenda l).answer v with freeCtr := m } := ⟨rfl, rfl, rfl, rfl, rfl, rfl⟩
    (hm.run hs).congr hin rfl ⟨rfl, rfl, rfl, rfl⟩ ⟨rfl, rfl⟩ ((hm.run hs).reader.congr hin rfl)

theorem MachineInv.setAgenda {s : State} (hm : MachineInv s) (l : List Turn) : MachineInv (s.setAgenda l) :=
  hm.surroundings l s.hostData s.freeCtr

/-- A host's move: RST and START have their own states, a write acts outside `RUN` alone, the rest touches no part of the
invariant. -/
theorem HostLeaves.machineInv {s t : State} {m : HostMove} (h : HostLeaves s m t) (hm : MachineInv s) : MachineInv t := by
  cases h with
  | reset h =>
    cases h
    exact machineInv_of_stores ⟨Memory.wf_nil, Memory.wf_nil, Memory.wf_nil⟩ (by simp) fun h => by cases h
  | started hv h => exact hm.execStart h
  | answered v n => exact hm.surroundings s.agenda v n
  | configured r v hs =>
    obtain ⟨herr, hin, hd, ho⟩ := s.configWrite_frame r v
    exact hm.outside_run hs (s.configWrite_state r v) herr ⟨hin ▸ hm.in_wf, hd ▸ hm.dict_wf, ho ▸ hm.out_wf⟩
  | stored a b hs => exact hm.outside_run hs rfl rfl ⟨Memory.wf_write _ _ _ hm.in_wf, hm.dict_wf, hm.out_wf⟩

/-- Settles O42: an engine turn keeps the invariant through the fetch and the code's effect, a host's move by its five cases. -/
theorem everyStepKeepsTheInvariant : Obligations.EveryStepKeepsTheInvariant := by
  intro s t hm h
  rcases step_next h with ⟨rest, -, h⟩ | ⟨m, rest, -, h⟩
  · exact (hm.setAgenda rest).engineStep h
  · exact h.machineInv (hm.setAgenda rest)

end Sys2Proof.Machine
end

section
/-! The fetch as a function of the flat input (40 R124): the code, `BITPOS` after it and the bytes, said of `IN_BYTES` and
`BITPOS` alone. -/
namespace Sys2Proof.Machine

theorem State.bitpos_setReader (s : State) (r : BitReader) :
    (s.setReader r).bitpos = 8 * s.consumedAt r - r.nbits.toNat := rfl

/-- The fetch writes the bit reader alone (40 R120). -/
theorem State.nextCode_setReader (s : State) (w : Nat) : ∃ r, (s.nextCode w).2 = s.setReader r := by
  rcases s.nextCode_eq w with ⟨e, -⟩ | ⟨e, -⟩ <;> rw [e] <;> exact ⟨_, rfl⟩

@[simp] theorem State.nextCode_inBytes (s : State) (w : Nat) : (s.nextCode w).2.inBytes = s.inBytes := by
  obtain ⟨r, e⟩ := s.nextCode_setReader w
  rw [e]
  rfl

/-- The low pending bits are the code of the closed form (20 R64, 40 R122). -/
theorem ReaderOk.lowCode {s : State} {r : BitReader} (h : ReaderOk s r) {w : Nat} (hw : w ≤ r.nbits.toNat) :
    r.lowCode w = BitVec.ofNat 12 (streamBits s.inBytes (8 * s.consumedAt r - r.nbits.toNat) w) := by
  rw [BitReader.lowCode, lowBits,
    mod_two_pow_eq_streamBits s.inBytes _ _ w fun i hi => h.pending i (Nat.lt_of_lt_of_le hi hw)]

/-- `Refill` keeps the invariant and `BITPOS`; it leaves too few bits only at the end of the input (40 R121, R123). -/
theorem ReaderInv.refill {s : State} (h : ReaderInv s) {w : Nat} (hw : w ≤ 12) :
    ReaderOk s (s.refill w s.reader) ∧
    8 * s.consumedAt (s.refill w s.reader) - (s.refill w s.reader).nbits.toNat = s.bitpos ∧
    ((s.refill w s.reader).nbits.toNat < w → s.consumedAt (s.refill w s.reader) = s.inBytes.length) := by
  obtain ⟨hok, hpos, -, -, -, -, hend⟩ := s.refillWithin_spec w 2 hw s.reader ((readerInv_iff s).mp h) (by omega)
  exact ⟨hok, hpos, fun hn => (hend hn).1⟩

/-- Both ways a fetch ends: fewer bits remain than asked for, or the code at `BITPOS` is delivered (40 R123, R124). -/
theorem ReaderInv.nextCode_cases {s : State} (h : ReaderInv s) {w : Nat} (hw : w ≤ 12) :
    (¬s.bitpos + w ≤ 8 * s.inBytes.length ∧ (s.nextCode w).1 = none ∧ (s.nextCode w).2.bitpos = s.bitpos) ∨
    (s.bitpos + w ≤ 8 * s.inBytes.length ∧
      (s.nextCode w).1 = some (BitVec.ofNat 12 (streamBits s.inBytes s.bitpos w)) ∧
      (s.nextCode w).2.bitpos = s.bitpos + w) := by
  obtain ⟨hok, hpos, hend⟩ := h.refill hw
  have hnle := hok.nle
  have hin := hok.cur.consumedAt_le
  rcases s.nextCode_eq w with ⟨e, hn⟩ | ⟨e, hn⟩ <;> rw [e]
  · refine .inl ⟨?_, rfl, hpos⟩
    rw [← hpos, hend hn]
    omega
  · obtain ⟨-, hnb, hcons⟩ := BitReader.dropBits_spec s w hw _ hok hn
    refine .inr ⟨by omega, by rw [hok.lowCode hn, hpos], ?_⟩
    rw [State.bitpos_setReader, hnb, hcons]
    omega

/-- The fetched code is the closed form of 40 R124. -/
theorem ReaderInv.nextCode_fst {s : State} (h : ReaderInv s) {w : Nat} (hw : w ≤ 12) :
    (s.nextCode w).1 = codeAt s.inBytes s.bitpos w := by
  rcases h.nextCode_cases hw with ⟨hfit, e, -⟩ | ⟨hfit, e, -⟩ <;> simp only [codeAt, hfit, e, if_true, if_false]

/-- `BITPOS` after a fetch: past the code, or where it was (40 R122, R123). -/
theorem ReaderInv.nextCode_bitpos {s : State} (h : ReaderInv s) {w : Nat} (hw : w ≤ 12) :
    (s.nextCode w).2.bitpos = if s.bitpos + w ≤ 8 * s.inBytes.length then s.bitpos + w else s.bitpos := by
  rcases h.nextCode_cases hw with ⟨hfit, -, e⟩ | ⟨hfit, -, e⟩ <;> simp only [hfit, e, if_true, if_false]

end Sys2Proof.Machine
end

section
/-! Progress of a running engine: a well-formed code completes, and so does an engine turn (40 R130). -/
namespace Sys2Proof.Machine

theorem DictInv.known {s : State} (hd : DictInv s) {c : Code} (hb : s.bound c) : s.known c := by
  obtain ⟨S, -, hok⟩ := hd.str?_stringOk hb
  obtain ⟨f, hf, -⟩ := hok.first
  obtain ⟨l, hl, -⟩ := hok.len
  exact ⟨Option.isSome_of_eq_some hf, Option.isSome_of_eq_some hl⟩

/-- The string of a bound code and its first symbol can be read (10 R42). -/
theorem DictInv.exists_string {s : State} (hd : DictInv s) {c : Code} (hb : s.bound c) :
    ∃ S f, s.str? c = some S ∧ s.first? c = some f := by
  obtain ⟨S, hS, hok⟩ := hd.str?_stringOk hb
  obtain ⟨f, hf, -⟩ := hok.first
  exact ⟨S, f, hS, hf⟩

/-- The shared tail completes, whether or not the count overflows. -/
theorem State.exists_emitAssign (S : List LzwSym) {p : Code} (x : LzwSym) (c : Code) {s : State} (hk : s.known p) :
    ∃ t, s.emitAssign S p x c = .next t := by
  by_cases ho : s.overflows S.length
  · exact ⟨_, if_pos ho⟩
  · exact s.emitAssign_completes S p x c hk ho

theorem RunInv.exists_execLit {s : State} (h : RunInv s) (k : Code) : ∃ t, execLit k s = .next t := by
  unfold execLit
  split
  next => split <;> exact ⟨_, rfl⟩
  next p hp => exact State.exists_emitAssign _ _ _ (h.dict.known (h.prev_bound p hp))

theorem RunInv.exists_execRef {s : State} (h : RunInv s) {c : Code} (hp : s.prevValid = true) (hc : s.assigned c) :
    ∃ t, execRef c s = .next t := by
  obtain ⟨p, hp⟩ := Option.isSome_iff_exists.mp hp
  obtain ⟨S, f, hS, hf⟩ := h.dict.exists_string (.inr hc)
  simp only [execRef, hp, hS, hf]
  exact State.exists_emitAssign _ _ _ (h.dict.known (h.prev_bound p hp))

theorem RunInv.exists_execKwk {s : State} (h : RunInv s) (hp : s.prevValid = true) (hroom : ¬s.dictFull) :
    ∃ t, execKwk s = .next t := by
  obtain ⟨p, hp⟩ := Option.isSome_iff_exists.mp hp
  have hb := h.prev_bound p hp
  obtain ⟨S, f, hS, hf⟩ := h.dict.exists_string hb
  simp only [execKwk, hp, if_neg hroom, hS, hf]
  exact State.exists_emitAssign _ _ _ (h.dict.known hb)

theorem execEoi_eq (s : State) :
    execEoi s = .next (if s.cfg.tailCheck then
      if (s.nextCode s.width.toNat).1.isSome then (s.nextCode s.width.toNat).2.raise .afterEoi
      else (s.nextCode s.width.toNat).2.finalCheck
    else s.finalCheck) := by
  unfold execEoi
  rcases s.nextCode s.width.toNat with ⟨_ | c, u⟩ <;> split <;> rfl

theorem exists_execStart (s : State) : ∃ t, execStart s = .next t := by
  unfold execStart
  repeat' split
  all_goals exact ⟨_, rfl⟩

/-- An instruction whose operand and context conditions hold never stops a running engine (30 R93, log 11). -/
theorem RunInv.exists_exec {s : State} (h : RunInv s) {i : Instr} (hw : i.wf s.ctx = true) : ∃ t, exec i s = .next t := by
  cases i with
  | clr => exact ⟨_, rfl⟩
  | eoi => exact ⟨_, execEoi_eq s⟩
  | lit k => exact h.exists_execLit k
  | ref c =>
    simp only [Instr.wf, Bool.and_eq_true, decide_eq_true_eq] at hw
    obtain ⟨⟨hp, hge⟩, hlt⟩ := hw
    exact h.exists_execRef hp ⟨hge, hlt⟩
  | kwk =>
    simp only [Instr.wf, Bool.and_eq_true, decide_eq_true_eq] at hw
    obtain ⟨hp, hroom⟩ := hw
    exact h.exists_execKwk hp (Nat.not_le_of_lt hroom)
  | unassigned c => exact ⟨_, rfl⟩
  | start => exact exists_execStart s
  | rst => exact ⟨_, rfl⟩

theorem RunInv.exists_engineStep {s : State} (h : RunInv s) : ∃ t, engineStep s = .next t := by
  rcases engineStep_cases s with ⟨-, e⟩ | ⟨-, -, e⟩ | ⟨-, c, -, e⟩ <;> rw [e]
  · exact ⟨_, rfl⟩
  · exact ⟨_, rfl⟩
  · exact h.nextCode.exists_exec (classify_wf _ c)

/-- The engine step in `RUN`, by the code fetched (40 R131). -/
theorem engineStep_eq {s : State} (hs : s.state = .run) :
    engineStep s = match (s.nextCode s.width.toNat).1 with
      | none => .next ((s.nextCode s.width.toNat).2.raise .trunc)
      | some c => exec (classify (s.nextCode s.width.toNat).2.ctx c) (s.nextCode s.width.toNat).2 := by
  rw [engineStep, if_pos hs]
  rcases s.nextCode s.width.toNat with ⟨_ | c, u⟩ <;> rfl

/-- The engine's turn, listed or not, is an engine step with that turn used up (log 7). -/
theorem State.engineTurn.step_eq {s : State} (h : s.engineTurn) : step s = engineStep (s.setAgenda s.agenda.tail) := by
  rcases h with ha | ⟨rest, ha⟩
  · have hs : s.setAgenda s.agenda.tail = s := by rw [ha, List.tail_nil, ← ha]; rfl
    rw [hs, step, ha]
  · rw [step, ha, List.tail_cons]

end Sys2Proof.Machine
end

section
/-! The input (20): it is immutable in `RUN` (R77), and its split into sub-blocks cannot be observed (R62). The second is a
simulation: every operation of the engine takes states that are the same but for the split to such states again. The fetch does
so because it is a function of the flat input and `BITPOS`; the codes read neither the input nor the bit reader but by a fetch. -/
namespace Sys2Proof.Machine

/-- Settles O44: neither an engine turn nor, in `RUN`, a host's move other than a reset writes the input. -/
theorem inputIsImmutableInRun : Obligations.InputIsImmutableInRun := by
  intro s t hs hm h
  exact step_sameInput hs hm h

namespace SameButSplit

section
variable {s t : State} (h : SameButSplit s t)
include h

/-! What such states read alike. -/

theorem n : t.n = s.n := congrArg BitVec.toNat h.mcs

theorem expect : t.expect = s.expect := by simp only [State.expect, h.imgW, h.imgH]

theorem ctx : t.ctx = s.ctx := by simp only [State.ctx, State.prevValid, h.n, h.dictionary.next, h.dictionary.prev]

theorem slot? (c : Code) : t.slot? c = s.slot? c := by
  simp only [State.slot?, State.assigned, h.n, h.dictionary.next, h.dictionary.dict]

theorem first? (c : Code) : t.first? c = s.first? c := by simp only [State.first?, h.n, h.slot?]

theorem len? (c : Code) : t.len? c = s.len? c := by simp only [State.len?, h.n, h.slot?]

theorem str? (c : Code) : t.str? c = s.str? c := State.strWithin_congr h.n h.dictionary.next h.dictionary.dict _ c

theorem overflows_iff (k : Nat) : t.overflows k ↔ s.overflows k := by
  rw [State.overflows, State.overflows, h.expect, h.output.outCount]

theorem dictFull_iff : t.dictFull ↔ s.dictFull := by rw [State.dictFull, State.dictFull, h.dictionary.next]

/-! The named operations. -/

theorem raise (e : ErrCode) : SameButSplit (s.raise e) (t.raise e) :=
  { h with state := rfl, err := rfl, dictionary := { h.dictionary with }, output := { h.output with } }

theorem finish : SameButSplit s.finish t.finish :=
  { h with state := rfl, dictionary := { h.dictionary with }, output := { h.output with } }

theorem setPrev (c : Code) : SameButSplit (s.setPrev c) (t.setPrev c) :=
  { h with dictionary := { h.dictionary with prev := rfl }, output := { h.output with } }

theorem setAgenda (l : List Turn) : SameButSplit (s.setAgenda l) (t.setAgenda l) :=
  { h with agenda := rfl, dictionary := { h.dictionary with }, output := { h.output with } }

theorem clearDict : SameButSplit s.clearDict t.clearDict :=
  { h with
    dictionary := { h.dictionary with
      width := by simp only [State.clearDict_width, h.n]
      next := by simp only [State.clearDict_next, h.n]
      prev := rfl }
    output := { h.output with } }

theorem emit (S : List LzwSym) : SameButSplit (s.emit S) (t.emit S) :=
  { h with
    dictionary := { h.dictionary with }
    output :=
      { outCount := by simp only [State.emit_outCount, h.output.outCount]
        out := by simp only [State.emit_out, h.output.outCount, h.output.out] } }

theorem bindSlot (e : DictEntry) : SameButSplit (s.bindSlot e) (t.bindSlot e) :=
  { h with
    dictionary := { h.dictionary with
      next := by simp only [State.bindSlot_next, h.dictionary.next]
      dict := by simp only [State.bindSlot_dict, h.dictionary.next, h.dictionary.dict] }
    output := { h.output with } }

theorem growWidth : SameButSplit s.growWidth t.growWidth := by
  unfold State.growWidth
  rw [h.dictionary.next, h.dictionary.width]
  split
  · exact { h with dictionary := { h.dictionary with width := rfl, next := rfl }, output := { h.output with } }
  · exact h

theorem finalCheck : SameButSplit s.finalCheck t.finalCheck := by
  unfold State.finalCheck
  rw [h.output.outCount, h.expect]
  split
  · exact h.finish
  · exact h.raise .count

theorem assign? (p : Code) (x : LzwSym) : Option.Rel SameButSplit (s.assign? p x) (t.assign? p x) := by
  unfold State.assign?
  simp only [h.dictFull_iff, h.first?, h.len?]
  split
  · exact .some h
  · split
    · exact .some (h.bindSlot _).growWidth
    · exact .none

/-- Other bit readers that stand at one `BITPOS`. -/
theorem setReader {r r' : BitReader} (hpos : (t.setReader r').bitpos = (s.setReader r).bitpos) :
    SameButSplit (s.setReader r) (t.setReader r') :=
  { h with bitpos := hpos, dictionary := { h.dictionary with }, output := { h.output with } }

/-- The fetch sees the flat input and `BITPOS` alone (40 R124). -/
theorem nextCode (hs : ReaderInv s) (ht : ReaderInv t) {w : Nat} (hw : w ≤ 12) :
    (t.nextCode w).1 = (s.nextCode w).1 ∧ SameButSplit (s.nextCode w).2 (t.nextCode w).2 := by
  have hpos : (t.nextCode w).2.bitpos = (s.nextCode w).2.bitpos := by
    rw [hs.nextCode_bitpos hw, ht.nextCode_bitpos hw, h.inBytes, h.bitpos]
  refine ⟨by rw [hs.nextCode_fst hw, ht.nextCode_fst hw, h.inBytes, h.bitpos], ?_⟩
  obtain ⟨r, e⟩ := s.nextCode_setReader w
  obtain ⟨r', e'⟩ := t.nextCode_setReader w
  rw [e, e'] at hpos ⊢
  exact h.setReader hpos

end

end SameButSplit

/-- Two answers that agree: next states that are the same but for the split, or one and the same stop. -/
inductive AnswersAlike : Answer → Answer → Prop
  | next {s t : State} (h : SameButSplit s t) : AnswersAlike (.next s) (.next t)
  | fault (r : Fault) : AnswersAlike (.fault r) (.fault r)

theorem AnswersAlike.exists_next {s : State} {b : Answer} (h : AnswersAlike (.next s) b) :
    ∃ t, b = .next t ∧ SameButSplit s t := by
  cases h with
  | next h => exact ⟨_, rfl, h⟩

namespace SameButSplit

section
variable {s t : State} (h : SameButSplit s t)
include h

/-! The codes. -/

theorem emitAssign (S : List LzwSym) (p : Code) (x : LzwSym) (c : Code) :
    AnswersAlike (s.emitAssign S p x c) (t.emitAssign S p x c) := by
  unfold State.emitAssign
  simp only [h.overflows_iff]
  split
  · exact .next (h.raise .count)
  · have hrel := (h.emit S).assign? p x
    generalize (s.emit S).assign? p x = a, (t.emit S).assign? p x = b at hrel ⊢
    cases hrel with
    | some hu => exact .next (hu.setPrev c)
    | none => exact .fault .unboundCode

theorem execLit (k : Code) : AnswersAlike (execLit k s) (execLit k t) := by
  unfold Machine.execLit
  simp only [h.dictionary.prev, h.overflows_iff]
  split
  · split
    · exact .next (h.raise .count)
    · exact .next ((h.emit [k]).setPrev k)
  · exact h.emitAssign _ _ _ _

theorem execRef (c : Code) : AnswersAlike (execRef c s) (execRef c t) := by
  unfold Machine.execRef
  simp only [h.dictionary.prev, h.str?, h.first?]
  split
  · exact .fault _
  · split
    · exact h.emitAssign _ _ _ _
    · exact .fault _

theorem execKwk : AnswersAlike (execKwk s) (execKwk t) := by
  unfold Machine.execKwk
  simp only [h.dictionary.prev, h.dictionary.next, h.dictFull_iff, h.str?, h.first?]
  split
  · exact .fault _
  · split
    · exact .fault _
    · split
      · exact h.emitAssign _ _ _ _
      · exact .fault _

theorem execEoi (hs : RunInv s) (ht : RunInv t) : AnswersAlike (execEoi s) (execEoi t) := by
  obtain ⟨hcode, hu⟩ := h.nextCode hs.reader ht.reader hs.width_le
  rw [execEoi_eq, execEoi_eq, h.tailCheck, h.dictionary.width, hcode]
  split
  · split
    · exact .next (hu.raise .afterEoi)
    · exact .next hu.finalCheck
  · exact .next h.finalCheck

/-- Every code of the stream; the two host commands, which write the bit reader and the model's own fields, are none. -/
theorem exec (hs : RunInv s) (ht : RunInv t) {i : Instr} (hstart : i ≠ .start) (hrst : i ≠ .rst) :
    AnswersAlike (exec i s) (exec i t) := by
  cases i with
  | clr => exact .next h.clearDict
  | eoi => exact h.execEoi hs ht
  | lit k => exact h.execLit k
  | ref c => exact h.execRef c
  | kwk => exact h.execKwk
  | unassigned c => exact .next (h.raise .unassigned)
  | start => exact absurd rfl hstart
  | rst => exact absurd rfl hrst

/-- The engine step: the same fetch, then the same code in the same context (40 R131). -/
theorem engineStep (hs : RunInv s) (ht : RunInv t) (hrun : s.state = .run) :
    AnswersAlike (engineStep s) (engineStep t) := by
  obtain ⟨hcode, hu⟩ := h.nextCode hs.reader ht.reader hs.width_le
  rw [engineStep_eq hrun, engineStep_eq (h.state.trans hrun), h.dictionary.width, hcode, hu.ctx]
  split
  · exact .next (hu.raise .trunc)
  · have hu' := ht.nextCode
    rw [h.dictionary.width] at hu'
    exact hu.exec hs.nextCode hu' (classify_ne_start _ _) (classify_ne_rst _ _)

end

end SameButSplit

/-- Settles O50: the step of two such states is an engine step of two such states, which completes in the first. -/
theorem splittingTheInputCannotBeObserved : Obligations.SplittingTheInputCannotBeObserved := by
  intro s₁ s₂ hm₁ hm₂ hrun hturn h
  have hturn₂ : s₂.engineTurn := by
    rw [State.engineTurn, h.agenda]
    exact hturn
  have hr₁ : RunInv (s₁.setAgenda s₁.agenda.tail) := (hm₁.setAgenda _).run hrun
  have hr₂ : RunInv (s₂.setAgenda s₁.agenda.tail) := (hm₂.setAgenda _).run (h.state.trans hrun)
  obtain ⟨t₁, e₁⟩ := hr₁.exists_engineStep
  have halike := (h.setAgenda s₁.agenda.tail).engineStep hr₁ hr₂ hrun
  rw [e₁] at halike
  obtain ⟨t₂, e₂, ht⟩ := halike.exists_next
  exact ⟨t₁, t₂, hturn.step_eq.trans e₁, by rw [hturn₂.step_eq, h.agenda, e₂], ht⟩

end Sys2Proof.Machine
end

section
/-! The opcode map (30 R93) against the encoder: a code selects an instruction exactly when the instruction's conditions hold and
the code is the one that encodes it. Each row of the map is that fact with the row's condition and code written out. -/
namespace Sys2Proof.Machine

/-- Decoding undoes encoding, for every constructor (30 R93, R97, R98). -/
theorem decode_encode {x : CodeCtx} (hx : x.Legal) {i : Instr} (hw : i.wf x = true) : decode x (encode x i) = .ok i := by
  cases i with
  | clr => exact Laws.RoundTrip.clr x hx hw
  | eoi => exact Laws.RoundTrip.eoi x hx hw
  | lit k => exact Laws.RoundTrip.lit k x hx hw
  | ref c => exact Laws.RoundTrip.ref c x hx hw
  | kwk => exact Laws.RoundTrip.kwk x hx hw
  | unassigned c => exact Laws.RoundTrip.unassigned c x hx hw
  | start => exact Laws.RoundTrip.start x hx hw
  | rst => exact Laws.RoundTrip.rst x hx hw

/-- Encoding undoes the opcode map: each row is selected by the code that encodes it. -/
theorem encode_classify (x : CodeCtx) (c : Code) : encode x (classify x c) = .code c := by
  have self {m : Nat} (h : c.toNat = m) : Stimulus.code (BitVec.ofNat 12 m) = .code c := by
    rw [← h, BitVec.ofNat_toNat, BitVec.setWidth_eq]
  unfold classify
  split
  next h => exact self h
  next =>
    split
    next h => exact self h
    next =>
      split
      next => rfl
      next =>
        split
        next => rfl
        next =>
          split
          next h => exact self h.2.1
          next => rfl

theorem classify_eq_iff {x : CodeCtx} (hx : x.Legal) (c : Code) (i : Instr) :
    classify x c = i ↔ i.wf x = true ∧ encode x i = .code c := by
  constructor
  · rintro rfl
    exact ⟨classify_wf x c, encode_classify x c⟩
  · rintro ⟨hw, he⟩
    have h := decode_encode hx hw
    rw [he] at h
    exact Except.ok.inj h

theorem code_ofNat_eq_iff {m : Nat} (hm : m < dictSize) (c : Code) :
    Stimulus.code (BitVec.ofNat 12 m) = .code c ↔ c.toNat = m := by
  rw [Stimulus.code.injEq, ← BitVec.toNat_inj, BitVec.toNat_ofNat, Nat.mod_eq_of_lt hm, eq_comm]

section
variable {x : CodeCtx} (hx : x.Legal) (c : Code)
include hx

theorem eoiCode_lt : eoiCode x.n < dictSize := by
  have := Laws.RoundTrip.pow_le hx.2.1
  simp only [eoiCode, clearCode, dictSize]
  omega

theorem classify_eq_clr_iff : classify x c = .clr ↔ c.toNat = clearCode x.n := by
  have hlt : clearCode x.n < dictSize := Nat.lt_of_succ_lt (eoiCode_lt hx)
  rw [classify_eq_iff hx, encode, code_ofNat_eq_iff hlt]
  exact and_iff_right rfl

theorem classify_eq_eoi_iff : classify x c = .eoi ↔ c.toNat = eoiCode x.n := by
  rw [classify_eq_iff hx, encode, code_ofNat_eq_iff (eoiCode_lt hx)]
  exact and_iff_right rfl

theorem classify_eq_lit_iff : classify x c = .lit c ↔ c.toNat < clearCode x.n := by
  rw [classify_eq_iff hx, Instr.wf, decide_eq_true_eq]
  exact and_iff_left rfl

theorem classify_eq_ref_iff :
    classify x c = .ref c ↔ x.prevValid = true ∧ firstFree x.n ≤ c.toNat ∧ c.toNat < x.next.toNat := by
  rw [classify_eq_iff hx, Instr.wf]
  simp only [Bool.and_eq_true, decide_eq_true_eq, and_assoc]
  exact ⟨fun ⟨hp, hge, hlt, _⟩ => ⟨hp, hge, hlt⟩, fun ⟨hp, hge, hlt⟩ => ⟨hp, hge, hlt, rfl⟩⟩

theorem classify_eq_kwk_iff :
    classify x c = .kwk ↔ x.prevValid = true ∧ c.toNat = x.next.toNat ∧ x.next.toNat < dictSize := by
  rw [classify_eq_iff hx, Instr.wf, encode, Bool.and_eq_true, decide_eq_true_eq, and_assoc, and_comm (a := x.next.toNat < _)]
  exact and_congr_right' (and_congr_left fun hlt => code_ofNat_eq_iff hlt c)

/-- Row 6 as the rule spells it: the range above `NEXT`, and without a predecessor `NEXT` itself and the assigned range. -/
theorem classify_eq_unassigned_iff : classify x c = .unassigned c ↔
    x.next.toNat < c.toNat ∨ (c.toNat = x.next.toNat ∧ x.prevValid = false) ∨
      (firstFree x.n ≤ c.toNat ∧ x.prevValid = false) := by
  have hnext : firstFree x.n ≤ x.next.toNat := hx.2.2.1
  rw [classify_eq_iff hx, Instr.wf]
  simp only [Bool.and_eq_true, Bool.or_eq_true, Bool.not_eq_true', decide_eq_true_eq]
  constructor
  · rintro ⟨⟨hge, hp | hlt⟩, -⟩
    · exact .inr (.inr ⟨hge, hp⟩)
    · exact .inl hlt
  · rintro (hlt | ⟨heq, hp⟩ | ⟨hge, hp⟩)
    · exact ⟨⟨by omega, .inr hlt⟩, rfl⟩
    · exact ⟨⟨by omega, .inl hp⟩, rfl⟩
    · exact ⟨⟨hge, .inl hp⟩, rfl⟩

end

/-- Settles O6: the six rows. -/
theorem classificationIsTheOpcodeMap : Obligations.ClassificationIsTheOpcodeMap := by
  intro x c hx
  exact ⟨classify_eq_clr_iff hx c, classify_eq_eoi_iff hx c, classify_eq_lit_iff hx c, classify_eq_ref_iff hx c,
    classify_eq_kwk_iff hx c, classify_eq_unassigned_iff hx c⟩

end Sys2Proof.Machine
end

section
/-! The stream as one number, the bytes its digits in base 256 from the lowest on: `BIT(p)` (20 R63) is that number's bit `p`,
and a code (20 R64, 40 R124) is a field of it. -/
namespace Sys2Proof.Machine

/-- The number whose bit `p` is the stream's `BIT(p)`. -/
def streamValue (bytes : List Byte) : Nat := Nat.ofDigits 256 (bytes.map BitVec.toNat)

@[simp] theorem streamValue_nil : streamValue [] = 0 := rfl

theorem streamValue_cons (b : Byte) (bytes : List Byte) : streamValue (b :: bytes) = b.toNat + 256 * streamValue bytes := by
  simp only [streamValue, List.map_cons, Nat.ofDigits_cons]

theorem streamValue_append (l bytes : List Byte) :
    streamValue (l ++ bytes) = streamValue l + 2 ^ (8 * l.length) * streamValue bytes := by
  simp only [streamValue, List.map_append, Nat.ofDigits_append, List.length_map, Nat.pow_mul]

theorem streamBit_cons (b : Byte) (bytes : List Byte) (p : Nat) :
    streamBit (b :: bytes) p = if p < 8 then b.getLsbD p else streamBit bytes (p - 8) := by
  rcases Nat.lt_or_ge p 8 with hp | hp
  · rw [if_pos hp, streamBit, Nat.div_eq_of_lt hp, Nat.mod_eq_of_lt hp, List.getElem?_cons_zero]
  · obtain ⟨k, rfl⟩ := Nat.exists_eq_add_of_le' hp
    rw [if_neg (Nat.not_lt_of_le hp), Nat.add_sub_cancel, streamBit, streamBit, Nat.add_div_right k (by decide),
      Nat.add_mod_right, List.getElem?_cons_succ]

theorem testBit_streamValue (bytes : List Byte) (p : Nat) : (streamValue bytes).testBit p = streamBit bytes p := by
  induction bytes generalizing p with
  | nil => simp [streamBit]
  | cons b bytes ih =>
    rw [streamValue_cons, Nat.add_comm, Nat.testBit_two_pow_mul_add _ b.isLt, streamBit_cons, ih]
    rfl

/-- A code's value is a field of the stream's number (20 R64). -/
theorem streamBits_eq (bytes : List Byte) (p w : Nat) : streamBits bytes p w = streamValue bytes / 2 ^ p % 2 ^ w := by
  refine (mod_two_pow_eq_streamBits bytes _ p w fun i _ => ?_).symm
  rw [Nat.testBit_div_two_pow, testBit_streamValue, Nat.add_comm]

/-- A field of `w` bits at bit `r` lies in the low `r + w` bits. -/
theorem field_congr {a b r w : Nat} (h : a % 2 ^ (r + w) = b % 2 ^ (r + w)) : a / 2 ^ r % 2 ^ w = b / 2 ^ r % 2 ^ w := by
  rw [Nat.pow_add] at h
  rw [← Nat.mod_mul_right_div_self, h, Nat.mod_mul_right_div_self]

/-- The byte `IN_BYTES[q]`, absent bytes 0, is the digit `q` of the number. -/
theorem streamValue_drop (bytes : List Byte) (q : Nat) :
    streamValue (bytes.drop q) = (bytes.getD q 0).toNat + 256 * streamValue (bytes.drop (q + 1)) := by
  rcases Nat.lt_or_ge q bytes.length with hq | hq
  · rw [List.drop_eq_getElem_cons hq, streamValue_cons, List.getD_eq_getElem _ _ hq]
  · rw [List.drop_eq_nil_of_le hq, List.drop_eq_nil_of_le (hq.trans (Nat.le_succ q)), List.getD_eq_default _ _ hq]
    rfl

theorem streamValue_div (bytes : List Byte) (q : Nat) : streamValue bytes / 2 ^ (8 * q) = streamValue (bytes.drop q) := by
  rw [Nat.pow_mul, streamValue, Nat.ofDigits_div_pow_eq_ofDigits_drop q (by decide), streamValue, List.map_drop]
  intro d hd
  obtain ⟨b, -, rfl⟩ := List.mem_map.mp hd
  exact b.isLt

/-- The formula of 30 R91: a code of at most 12 bits lies in three bytes. -/
theorem streamBits_eq_threeBytes (bytes : List Byte) (p : Nat) {w : Nat} (hw : w ≤ codeMaxW) :
    streamBits bytes p w = ((bytes.getD (p / 8) 0).toNat + 256 * (bytes.getD (p / 8 + 1) 0).toNat +
      65536 * (bytes.getD (p / 8 + 2) 0).toNat) / 2 ^ (p % 8) % 2 ^ w := by
  have hp : 2 ^ p = 2 ^ (8 * (p / 8)) * 2 ^ (p % 8) := by rw [← Nat.pow_add, Nat.div_add_mod]
  rw [streamBits_eq, hp, ← Nat.div_div_eq_div_mul, streamValue_div]
  apply field_congr
  have hdvd : 2 ^ (p % 8 + w) ∣ 2 ^ 24 := Nat.pow_dvd_pow 2 (by simp only [codeMaxW] at hw; omega)
  rw [streamValue_drop bytes (p / 8), streamValue_drop bytes (p / 8 + 1), streamValue_drop bytes (p / 8 + 2),
    ← Nat.mod_mod_of_dvd _ hdvd, ← Nat.mod_mod_of_dvd (_ + _) hdvd]
  congr 1
  omega

theorem getLsbD_streamBits (bytes : List Byte) (p : Nat) {w i : Nat} (hw : w ≤ codeMaxW) (hi : i < w) :
    (BitVec.ofNat 12 (streamBits bytes p w)).getLsbD i = streamBit bytes (p + i) := by
  have hi12 : i < 12 := Nat.lt_of_lt_of_le hi hw
  rw [BitVec.getLsbD_ofNat, streamBits_eq, Nat.testBit_mod_two_pow, Nat.testBit_div_two_pow, testBit_streamValue, Nat.add_comm]
  simp only [hi, hi12, decide_true, Bool.true_and]

/-- Settles O7: the fetch is the closed form of 40 R124, whose value is the three-byte field. -/
theorem fetchedCodeIsAFieldOfThreeBytes : Obligations.FetchedCodeIsAFieldOfThreeBytes := by
  rintro s hr ⟨-, hw⟩
  dsimp only
  rw [hr.nextCode_fst hw]
  refine ⟨fun hfit => ⟨_, if_pos hfit, fun i hi => getLsbD_streamBits _ _ hw hi, ?_⟩, fun hend => if_neg (Nat.not_le_of_lt hend)⟩
  have hlt : streamBits s.inBytes s.bitpos s.width.toNat < 2 ^ 12 := by
    rw [streamBits_eq]
    exact Nat.lt_of_lt_of_le (Nat.mod_lt _ (Nat.two_pow_pos _)) (Nat.pow_le_pow_right (by decide) hw)
  rw [BitVec.toNat_ofNat, Nat.mod_eq_of_lt hlt, streamBits_eq_threeBytes _ _ hw]

theorem codeAt_of_streamBits {bytes : List Byte} {p w : Nat} {c : Code} (hfit : p + w ≤ 8 * bytes.length)
    (h : streamBits bytes p w = c.toNat) : codeAt bytes p w = some c := by
  rw [codeAt, if_pos hfit, h, BitVec.ofNat_toNat, BitVec.setWidth_eq]

/-- Where the stream holds a code's bits, the closed form reads that code. -/
theorem codeAt_of_bits {bytes : List Byte} {p w : Nat} {c : Code} (hfit : p + w ≤ 8 * bytes.length) (hc : c.toNat < 2 ^ w)
    (hbits : ∀ j < w, streamBit bytes (p + j) = c.getLsbD j) : codeAt bytes p w = some c := by
  apply codeAt_of_streamBits hfit
  rw [← mod_two_pow_eq_streamBits bytes c.toNat p w fun j hj => (hbits j hj).symm, Nat.mod_eq_of_lt hc]

/-- Settles O8: the stream's bits give the code back, and the code selects the instruction it encodes. -/
theorem encodedInstructionDecodesAnywhereInAStream : Obligations.EncodedInstructionDecodesAnywhereInAStream := by
  intro x i c w p bytes hx hwf he hw hfit hc hbits
  rw [decodeStream, if_pos hw, codeAt_of_bits hfit hc hbits]
  simp only [(classify_eq_iff hx c i).mpr ⟨hwf, he⟩]

end Sys2Proof.Machine
end

section
/-! The host's two commands (30 R97, 10 R26), and the words the spec writes out (30 R96, R101). -/
namespace Sys2Proof.Machine

/-- The command word: bit 0 set is START, whatever the other bits (30 R97). -/
theorem decodeCtrl_eq (v : Word) : decodeCtrl v = if v.getLsbD 0 = true then .ok .start else .error .notACommand := by
  have hmask : v &&& 1#32 = 1#32 ↔ v.getLsbD 0 = true := by
    rw [BitVec.and_one_eq_setWidth_ofBool_getLsbD]
    cases v.getLsbD 0 <;> decide
  simp only [decodeCtrl, hmask]

/-- Settles O4: the step is the move's, and the word written to `CTRL` decides between START and nothing. -/
theorem stepRunsTheHostCommands : Obligations.StepRunsTheHostCommands := by
  intro s rest
  refine ⟨fun ha => ?_, fun v ha hv => ?_, fun v ha hv => ?_⟩ <;> rw [step, ha]
  · rfl
  · simp only [hostStep, hostRegWrite, if_true, decodeCtrl_eq, hv]
  · simp only [hostStep, hostRegWrite, if_true, decodeCtrl_eq, hv, Bool.false_eq_true, if_false]

/-- Settles O10: by evaluation. -/
theorem writtenOutWordsDecode : Obligations.WrittenOutWordsDecode := by
  unfold Obligations.WrittenOutWordsDecode
  decide

end Sys2Proof.Machine
end

section
/-! The packer (30 R99) against the reader: the bytes that leave the accumulator, with what stays in it, are one number, and the
packed stream's number is made of the codes' in order. -/
namespace Sys2Proof.Machine

/-- What leaves the accumulator: the low bytes of its number. The rest of its bits stay, fewer than 8 when the rounds suffice. -/
theorem drainBytes_spec (f acc nb : Nat) (hf : nb < 8 * (f + 1)) :
    (drainBytes f acc nb).2.2 < 8 ∧ nb = 8 * (drainBytes f acc nb).1.length + (drainBytes f acc nb).2.2 ∧
      acc = streamValue (drainBytes f acc nb).1 + 2 ^ (8 * (drainBytes f acc nb).1.length) * (drainBytes f acc nb).2.1 := by
  induction f generalizing acc nb with
  | zero => exact ⟨hf, by simp [drainBytes], by simp [drainBytes]⟩
  | succ f ih =>
    rw [drainBytes]
    split
    next hnb =>
      obtain ⟨hlt, hlen, hval⟩ := ih (acc / 256) (nb - 8) (by omega)
      refine ⟨hlt, ?_, ?_⟩
      · simp only [List.length_cons]
        omega
      · rw [streamValue_cons, List.length_cons, Nat.mul_succ, Nat.add_comm _ 8, Nat.pow_add, Nat.mul_assoc, Nat.add_assoc,
          ← Nat.mul_add, ← hval, BitVec.toNat_ofNat]
        exact (Nat.mod_add_div acc 256).symm
    next hnb => exact ⟨Nat.lt_of_not_le hnb, by simp, by simp⟩

/-- Reading behind whole bytes is reading what follows them. -/
theorem codeAt_append (l bytes : List Byte) (p w : Nat) : codeAt (l ++ bytes) (8 * l.length + p) w = codeAt bytes p w := by
  have hbits : streamBits (l ++ bytes) (8 * l.length + p) w = streamBits bytes p w := by
    rw [streamBits_eq, streamBits_eq, Nat.pow_add, ← Nat.div_div_eq_div_mul, streamValue_div, List.drop_left]
  have hfit : 8 * l.length + p + w ≤ 8 * (l ++ bytes).length ↔ p + w ≤ 8 * bytes.length := by
    rw [List.length_append]
    omega
  simp only [codeAt, hbits, hfit]

theorem unpackFrom_append (l bytes : List Byte) (t : Track) (p k : Nat) :
    unpackFrom (l ++ bytes) t (8 * l.length + p) k = unpackFrom bytes t p k := by
  induction k generalizing t p with
  | zero => rfl
  | succ k ih => simp only [unpackFrom, codeAt_append, Nat.add_assoc, ih]

/-- A code above the `nb` low bits of a stream's number is read at bit `nb`. -/
theorem codeAt_of_streamValue {bytes : List Byte} {acc nb w k : Nat} {c : Code} (hfit : nb + w ≤ 8 * bytes.length)
    (hacc : acc < 2 ^ nb) (hc : c.toNat < 2 ^ w) (h : streamValue bytes = acc + 2 ^ nb * (c.toNat + 2 ^ w * k)) :
    codeAt bytes nb w = some c := by
  apply codeAt_of_streamBits hfit
  rw [streamBits_eq, h, Nat.add_mul_div_left _ _ (Nat.two_pow_pos nb), Nat.div_eq_of_lt hacc, Nat.zero_add,
    Nat.add_mul_mod_self_left, Nat.mod_eq_of_lt hc]

/-! The packer's rule after a code (30 R99), case by case. -/

theorem Track.after_clear {t : Track} {c : Code} (h : c.toNat = clearCode t.n) : t.after c = Track.start t.n := if_pos h

theorem Track.after_eoi {t : Track} {c : Code} (h : c.toNat = eoiCode t.n) : t.after c = t := by
  have hne : c.toNat ≠ clearCode t.n := by
    rw [h]
    exact Nat.succ_ne_self _
  rw [Track.after, if_neg hne, if_pos h]

section
variable {t : Track} {c : Code} (hclear : c.toNat ≠ clearCode t.n) (heoi : c.toNat ≠ eoiCode t.n)
include hclear heoi

theorem Track.after_first (hp : t.prevValid = false) : t.after c = { t with prevValid := true } := by
  rw [Track.after, if_neg hclear, if_neg heoi, if_pos hp]

/-- With a predecessor the next slot is counted and the width grown, unless the dictionary is full. -/
theorem Track.after_assigned (hp : t.prevValid = true) : t.after c =
    { t with
      next := if t.next < dictSize then t.next + 1 else t.next
      width := if t.next < dictSize ∧ 2 ^ t.width - 1 < t.next + 1 ∧ t.width < codeMaxW then t.width + 1 else t.width } := by
  rw [Track.after, if_neg hclear, if_neg heoi, if_neg (by simp [hp])]
  by_cases hroom : t.next < dictSize <;> simp only [hroom, true_and, false_and, if_true, if_false]

end

/-- The packer's widths are the reader's: at most 12 bits. -/
structure TrackOk (t : Track) : Prop where
  n_le : t.n ≤ nMax
  width_le : t.width ≤ codeMaxW

theorem TrackOk.start {n : Nat} (h : n ≤ nMax) : TrackOk (Track.start n) := ⟨h, Nat.succ_le_succ h⟩

theorem TrackOk.after {t : Track} (h : TrackOk t) (c : Code) : TrackOk (t.after c) := by
  by_cases hclear : c.toNat = clearCode t.n
  · rw [Track.after_clear hclear]
    exact .start h.n_le
  by_cases heoi : c.toNat = eoiCode t.n
  · rwa [Track.after_eoi heoi]
  cases hp : t.prevValid with
  | false =>
    rw [Track.after_first hclear heoi hp]
    exact ⟨h.n_le, h.width_le⟩
  | true =>
    rw [Track.after_assigned hclear heoi hp]
    refine ⟨h.n_le, ?_⟩
    dsimp only
    split
    next hgrow => exact hgrow.2.2
    next => exact h.width_le

/-- The last byte holds what is left in the accumulator. -/
theorem packFrom_nil {t : Track} {acc nb : Nat} {bytes : List Byte} (hnb : nb < 8) (hacc : acc < 2 ^ nb)
    (h : packFrom t acc nb [] = some bytes) : nb ≤ 8 * bytes.length ∧ streamValue bytes = acc := by
  obtain rfl := Option.some.inj h
  split
  next =>
    have hbyte : acc < 2 ^ 8 := hacc.trans (Nat.pow_lt_pow_right (by decide) hnb)
    refine ⟨hnb.le, ?_⟩
    rw [streamValue_cons, BitVec.toNat_ofNat, Nat.mod_eq_of_lt hbyte]
    rfl
  next h0 =>
    obtain rfl := Nat.eq_zero_of_not_pos h0
    exact ⟨Nat.zero_le _, (Nat.lt_one_iff.mp hacc).symm⟩

/-- One round of the packer: whole bytes `l` leave, and the number of the pending bits with the code above them is theirs with
the new pending bits above. -/
theorem packFrom_cons {t : Track} (ht : TrackOk t) {acc nb : Nat} (hnb : nb < 8) (hacc : acc < 2 ^ nb) {c : Code}
    {cs : List Code} {bytes : List Byte} (h : packFrom t acc nb (c :: cs) = some bytes) :
    c.toNat < 2 ^ t.width ∧ ∃ l acc' nb' rest, bytes = l ++ rest ∧ packFrom (t.after c) acc' nb' cs = some rest ∧ nb' < 8 ∧
      acc' < 2 ^ nb' ∧ nb + t.width = 8 * l.length + nb' ∧
      acc + c.toNat * 2 ^ nb = streamValue l + 2 ^ (8 * l.length) * acc' := by
  have hw : t.width ≤ 12 := ht.width_le
  rw [packFrom] at h
  split at h
  next hc =>
    obtain ⟨hnb', hlen, hval⟩ := drainBytes_spec 2 (acc + c.toNat * 2 ^ nb) (nb + t.width) (by omega)
    generalize drainBytes 2 (acc + c.toNat * 2 ^ nb) (nb + t.width) = r at h hnb' hlen hval
    obtain ⟨l, acc', nb'⟩ := r
    obtain ⟨rest, hrest, rfl⟩ := Option.map_eq_some_iff.mp h
    refine ⟨hc, l, acc', nb', rest, rfl, hrest, hnb', Nat.lt_of_mul_lt_mul_left (a := 2 ^ (8 * l.length)) ?_, hlen, hval⟩
    calc 2 ^ (8 * l.length) * acc' ≤ acc + c.toNat * 2 ^ nb := hval ▸ Nat.le_add_left _ _
      _ < 2 ^ nb + c.toNat * 2 ^ nb := Nat.add_lt_add_right hacc _
      _ = (c.toNat + 1) * 2 ^ nb := by ring
      _ ≤ 2 ^ t.width * 2 ^ nb := Nat.mul_le_mul_right _ hc
      _ = 2 ^ (8 * l.length) * 2 ^ nb' := by rw [Nat.mul_comm, ← Nat.pow_add, hlen, Nat.pow_add]
  next => cases h

/-- The bytes packed from an accumulator of `nb` bits begin with those bits, and hold the codes behind them. -/
theorem packFrom_reads {t : Track} (ht : TrackOk t) {acc nb : Nat} (hnb : nb < 8) (hacc : acc < 2 ^ nb) {codes : List Code}
    {bytes : List Byte} (h : packFrom t acc nb codes = some bytes) :
    nb ≤ 8 * bytes.length ∧ (∃ k, streamValue bytes = acc + 2 ^ nb * k) ∧ unpackFrom bytes t nb codes.length = some codes := by
  induction codes generalizing t acc nb bytes with
  | nil =>
    obtain ⟨hle, hval⟩ := packFrom_nil hnb hacc h
    exact ⟨hle, ⟨0, hval⟩, rfl⟩
  | cons c cs ih =>
    obtain ⟨hc, l, acc', nb', rest, rfl, hrest, hnb', hacc', hlen, hval⟩ := packFrom_cons ht hnb hacc h
    obtain ⟨hle, ⟨k, hk⟩, hread⟩ := ih (ht.after c) hnb' hacc' hrest
    have hfit : nb + t.width ≤ 8 * (l ++ rest).length := by
      rw [List.length_append]
      omega
    have hstream : streamValue (l ++ rest) = acc + 2 ^ nb * (c.toNat + 2 ^ t.width * k) := by
      calc streamValue (l ++ rest) = streamValue l + 2 ^ (8 * l.length) * acc' + 2 ^ (8 * l.length + nb') * k := by
            rw [streamValue_append, hk, Nat.pow_add]
            ring
        _ = acc + c.toNat * 2 ^ nb + 2 ^ (nb + t.width) * k := by rw [hval, hlen]
        _ = acc + 2 ^ nb * (c.toNat + 2 ^ t.width * k) := by ring
    refine ⟨by omega, ⟨_, hstream⟩, ?_⟩
    simp only [List.length_cons, unpackFrom, codeAt_of_streamValue hfit hacc hc hstream]
    rw [hlen, unpackFrom_append, hread]
    rfl

theorem unpack_pack {n : Nat} {codes : List Code} {bytes : List Byte} (hn : n ≤ nMax) (h : pack n codes = some bytes) :
    unpack n bytes codes.length = some codes := by
  obtain ⟨-, -, hread⟩ := packFrom_reads (.start hn) (by decide) (by decide) h
  exact hread

end Sys2Proof.Machine
end

section
/-! What the packer tracks is what the engine holds (30 R92, R99): from START on, over every code that raises no error. -/
namespace Sys2Proof.Machine

theorem RunInv.legal {s : State} (h : RunInv s) : s.ctx.Legal :=
  ⟨h.n_ge, h.n_le, h.next_ge, h.next_le, fun hp => h.no_prev (Option.isSome_eq_false_iff.mp hp |> Option.isNone_iff_eq_none.mp)⟩

theorem execStart_track {s t : State} (hs : s.state ≠ .run) (h : execStart s = .next t) (ht : t.state = .run) :
    t.track = Track.start s.n := by
  rcases execStart_next h with ⟨hr, -⟩ | ⟨-, rfl⟩ | ⟨-, hmcs, -, -, rfl⟩
  · exact absurd hr hs
  · cases ht
  · exact s.clearResult.clearDict_track (Nat.le_of_not_lt fun hlt => hmcs (.inr hlt))

/-- A code that selects neither CLR nor EOI is neither reserved code. -/
theorem ne_reserved_of_classify {x : CodeCtx} (hx : x.Legal) {c : Code} {i : Instr} (hi : classify x c = i) (hclr : i ≠ .clr)
    (heoi : i ≠ .eoi) : c.toNat ≠ clearCode x.n ∧ c.toNat ≠ eoiCode x.n := by
  subst hi
  exact ⟨mt (classify_eq_clr_iff hx c).mpr hclr, mt (classify_eq_eoi_iff hx c).mpr heoi⟩

theorem Sends.ne_reserved {s : State} {i : Instr} {S : List LzwSym} {x : LzwSym} {c : Code} (h : Sends s i S x c) :
    i ≠ .clr ∧ i ≠ .eoi := by
  cases h <;> exact ⟨by simp, by simp⟩

/-- A completed code that raises no error takes what is tracked where the packer's rule takes it. -/
theorem CodeLeaves.track {s t : State} {i : Instr} {c : Code} (h : CodeLeaves s i t) (hr : RunInv s)
    (hi : classify s.ctx c = i) (ht : t.state ≠ .error) : t.track = s.track.after c := by
  cases h with
  | cleared =>
    have hc : c.toNat = clearCode s.n := (classify_eq_clr_iff hr.legal c).mp hi
    exact (s.clearDict_track hr.n_le).trans (Track.after_clear (t := s.track) hc).symm
  | raised r he => exact absurd rfl ht
  | finished r hcount =>
    have hc : c.toNat = eoiCode s.n := (classify_eq_eoi_iff hr.legal c).mp hi
    exact (Track.after_eoi (t := s.track) hc).symm
  | first hp ho =>
    obtain ⟨hclear, heoi⟩ := ne_reserved_of_classify hr.legal hi (by simp) (by simp)
    exact (Track.after_first (t := s.track) hclear heoi (congrArg Option.isSome hp)).symm
  | assigned hp hsend ho h =>
    obtain ⟨hclear, heoi⟩ := ne_reserved_of_classify hr.legal hi hsend.ne_reserved.1 hsend.ne_reserved.2
    have hvalid : s.prevValid = true := congrArg Option.isSome hp
    rw [Track.after_assigned (t := s.track) hclear heoi hvalid]
    rcases State.emitAssign_next h with ⟨ho', -⟩ | ⟨-, -, ha, hprev, -, -, -, hin, -⟩
    · exact absurd ho' ho
    · have hvalid' : t.prevValid = true := congrArg Option.isSome hprev
      simp only [State.track, hin.n, ha.next, ha.width, hvalid, hvalid']

theorem exec_classify_track {s t : State} {c : Code} (hr : RunInv s) (h : exec (classify s.ctx c) s = .next t)
    (ht : t.state ≠ .error) : t.track = s.track.after c :=
  (CodeLeaves.of_exec h (classify_ne_start _ c) (classify_ne_rst _ c)).track hr rfl ht

/-- The same over the whole engine turn: the code is the one at `BITPOS` and `WIDTH`, and the fetch keeps what is tracked. -/
theorem engineStep_track {s t : State} (hr : RunInv s) (hs : s.state = .run) (h : engineStep s = .next t)
    (ht : t.state ≠ .error) :
    ∃ c, codeAt s.inBytes s.bitpos s.width.toNat = some c ∧ t.track = s.track.after c := by
  rcases engineStep_cases s with ⟨hn, -⟩ | ⟨-, -, e⟩ | ⟨-, c, hc, e⟩
  · exact absurd hs hn
  · rw [e] at h
    cases h
    exact absurd rfl ht
  · rw [e] at h
    obtain ⟨hin, -, hd, -⟩ := s.nextCode_frame s.width.toNat
    refine ⟨c, (hr.reader.nextCode_fst hr.width_le).symm.trans hc, ?_⟩
    rw [exec_classify_track hr.nextCode h ht, State.track_congr hin.mcs hd]

/-- Settles O9: the packed bytes read back, and START, every code and every engine turn track as the packer does. -/
theorem packedStreamReadsBack : Obligations.PackedStreamReadsBack := by
  refine ⟨fun n codes bytes _ hn h => unpack_pack hn h, fun s t hs h ht => execStart_track hs h ht,
    fun s t c hr h ht => exec_classify_track hr h ht, fun s t hm hs hturn h ht => ?_⟩
  rw [hturn.step_eq] at h
  exact engineStep_track (s := s.setAgenda s.agenda.tail) ((hm.setAgenda _).run hs) hs h ht

end Sys2Proof.Machine
end

section
/-! The bit reader (40 R120 to R126): `next_code` as the closed form, what an exhausted fetch leaves, and how many bytes a fetch
reads. -/
namespace Sys2Proof.Machine

/-- The state START leaves in `RUN` has the reader at position 0 (44 R181). -/
theorem execStart_reader {s t : State} (hs : s.state ≠ .run) (h : execStart s = .next t) (ht : t.state = .run) :
    t.reader = .empty := by
  rcases execStart_next h with ⟨hr, -⟩ | ⟨-, rfl⟩ | ⟨-, -, -, -, rfl⟩
  · exact absurd hr hs
  · cases ht
  · rfl

theorem readerInv_of_empty {s : State} (h : s.reader = .empty) : ReaderInv s ∧ s.bitpos = 0 := by
  refine ⟨(readerInv_iff s).mpr (h ▸ .empty s), ?_⟩
  rw [State.bitpos, State.consumed, h]
  rfl

/-- Settles O11: START empties the reader, and the fetch keeps the invariant, which ties its registers to the closed form. -/
theorem nextCodeIsTheClosedForm : Obligations.NextCodeIsTheClosedForm :=
  ⟨fun _ _ hs h ht => readerInv_of_empty (execStart_reader hs h ht),
    fun s w h _ hw => ⟨h.nextCode hw, h.nextCode_fst hw, s.nextCode_inBytes w, h.nextCode_bitpos hw⟩⟩

theorem codeAt_eq_none_iff (bytes : List Byte) (p w : Nat) : codeAt bytes p w = none ↔ 8 * bytes.length < p + w := by
  rw [codeAt, ite_eq_right_iff, ← Nat.not_le]
  simp only [reduceCtorEq, imp_false]

theorem codeAt_isSome {bytes : List Byte} {p w : Nat} (h : p + w ≤ 8 * bytes.length) : (codeAt bytes p w).isSome := by
  rw [codeAt, if_pos h]
  rfl

/-- With the cursor at the end no byte is pulled (40 R126). -/
theorem State.refill_at_end {s : State} {r : BitReader} (hend : r.sbIdx = s.sbCount) (w : Nat) : s.refill w r = r := by
  have hmore : s.moreBytes r = r := by
    rw [State.moreBytes, hend, Nat.sub_self]
    rfl
  rw [State.refill, State.refillWithin, hmore]
  simp only [hend, Nat.lt_irrefl, if_false, ite_self]

/-- An exhausted reader stays so and changes nothing more (40 R123). -/
theorem State.nextCode_at_end {s : State} (hend : s.reader.sbIdx = s.sbCount) {w : Nat} (hn : s.reader.nbits.toNat < w) :
    s.nextCode w = (none, s) := by
  rcases s.nextCode_eq w with ⟨e, -⟩ | ⟨-, hge⟩
  · rw [e, State.refill_at_end hend]
    rfl
  · rw [State.refill_at_end hend] at hge
    exact absurd hge (Nat.not_le_of_lt hn)

/-- The cursor after `Refill`: at most two bytes on, none where enough bits are pending, and at the end where too few bits are left
(40 R121, R123). -/
theorem ReaderInv.refill_cursor {s : State} (h : ReaderInv s) {w : Nat} (hw : w ≤ 12) :
    s.consumed ≤ s.consumedAt (s.refill w s.reader) ∧ s.consumedAt (s.refill w s.reader) ≤ s.consumed + 2 ∧
    (w ≤ s.reader.nbits.toNat → s.consumedAt (s.refill w s.reader) = s.consumed) ∧
    (s.consumedAt (s.refill w s.reader) ≠ s.consumed → (s.refill w s.reader).nbits.toNat < w + 8) ∧
    ((s.refill w s.reader).nbits.toNat < w → (s.refill w s.reader).sbIdx = s.sbCount) := by
  obtain ⟨-, -, hge, hle, hnone, hfew, hend⟩ := s.refillWithin_spec w 2 hw s.reader ((readerInv_iff s).mp h) (by omega)
  exact ⟨hge, hle, hnone, hfew, fun hn => BitVec.eq_of_toNat_eq (hend hn).2⟩

/-- What an exhausted fetch leaves pending is all the stream still has (40 R123). -/
theorem ReaderInv.nextCode_exhausted {s : State} (h : ReaderInv s) {w : Nat} (hw : w ≤ 12) (hnone : (s.nextCode w).1 = none) :
    (s.nextCode w).2.reader.nbits.toNat < w ∧ (s.nextCode w).2.reader.sbIdx = s.sbCount ∧
      s.bitpos + (s.nextCode w).2.reader.nbits.toNat = 8 * s.inBytes.length := by
  obtain ⟨hok, hpos, hlen⟩ := h.refill hw
  obtain ⟨-, -, -, -, hend⟩ := h.refill_cursor hw
  rcases s.nextCode_eq w with ⟨e, hn⟩ | ⟨e, -⟩ <;> rw [e] at hnone ⊢
  · refine ⟨hn, hend hn, ?_⟩
    rw [State.setReader_reader, ← hpos, Nat.sub_add_cancel hok.nle, hlen hn]
  · cases hnone

/-- Settles O12: the cursor stays at the end, so a later fetch is decided by the bits that are pending. -/
theorem exhaustionIsFinal : Obligations.ExhaustionIsFinal := by
  intro s w h _ hw
  have hiff : (s.nextCode w).1 = none ↔ 8 * s.inBytes.length < s.bitpos + w := by
    rw [h.nextCode_fst hw, codeAt_eq_none_iff]
  refine ⟨hiff, fun hnone => ?_⟩
  dsimp only
  obtain ⟨hn, hend, hleft⟩ := h.nextCode_exhausted hw hnone
  have hinv := h.nextCode hw
  have hbytes := s.nextCode_inBytes w
  have hpos : (s.nextCode w).2.bitpos = s.bitpos := by
    rw [h.nextCode_bitpos hw, if_neg (Nat.not_le_of_lt (hiff.mp hnone))]
  have hend' := hend.trans (s.nextCode_sbCount w).symm
  refine ⟨hpos, hn, hend', hinv, hbytes, hleft, fun i hi => ?_,
    fun w' _ hw' => ⟨State.nextCode_at_end hend', fun hle => ?_⟩⟩
  · rw [hinv.pending i hi, hpos, hbytes]
  · rw [hinv.nextCode_fst hw', hpos, hbytes]
    exact ⟨rfl, codeAt_isSome (hleft ▸ Nat.add_le_add_left hle _)⟩

/-- Extraction reads no byte: a fetch consumes what its refill does. -/
theorem State.nextCode_consumed (s : State) (w : Nat) :
    (s.nextCode w).2.consumed = s.consumedAt (s.refill w s.reader) := by
  rcases s.nextCode_eq w with ⟨e, -⟩ | ⟨e, -⟩ <;> rw [e] <;> rfl

/-- Settles O13: a byte is pulled only while fewer than `w` bits are pending, so after the last one fewer than `w + 8` are. -/
theorem fetchReadsOnlyTheBytesItNeeds : Obligations.FetchReadsOnlyTheBytesItNeeds := by
  intro s w h _ hw
  dsimp only
  obtain ⟨hge, hle, hnone, hfew, -⟩ := h.refill_cursor hw
  rw [s.nextCode_consumed w]
  refine ⟨hge, hle, hnone, fun hsome hne => ?_⟩
  have hlt := hfew hne
  rcases s.nextCode_eq w with ⟨e, -⟩ | ⟨e, hn⟩ <;> rw [e] at hsome ⊢
  · cases hsome
  · obtain ⟨-, hnb, -⟩ := BitReader.dropBits_spec s w hw _ (h.refill hw).1 hn
    rw [State.setReader_reader, hnb]
    omega

end Sys2Proof.Machine
end

section
/-! The engine turn (40 R130 to R132): it runs the fetched code, it is never held up, and a run comes to its end. -/
namespace Sys2Proof.Machine

/-- Settles O3: the turn used up changes the agenda alone, and the fetch leaves the context as it was. -/
theorem stepRunsTheFetchedCode : Obligations.StepRunsTheFetchedCode := by
  intro s s' hs hturn
  obtain ⟨hstep, hs', hw, hctx⟩ :
      step s = engineStep s' ∧ s'.state = .run ∧ s'.width = s.width ∧ s'.ctx = s.ctx := by
    rcases hturn with ⟨ha, rfl⟩ | ⟨rest, ha, rfl⟩
    · exact ⟨by rw [step, ha], hs, rfl, rfl⟩
    · exact ⟨by rw [step, ha], hs, rfl, rfl⟩
  rw [hstep, engineStep_eq hs', hw]
  refine ⟨fun u e => by rw [e], fun c u e => ?_⟩
  have hu : u.ctx = s.ctx := (congrArg (·.2.ctx) e).symm.trans ((s'.nextCode_ctx _).trans hctx)
  simp only [e, hu]

/-! What an engine turn does to `BITPOS`. -/

theorem SameInput.inByte {s t : State} (h : SameInput s t) : t.inByte = s.inByte := by
  funext a
  rw [State.inByte, State.inByte, h.inMem, h.inEpoch]

theorem SameInput.inBytes {s t : State} (h : SameInput s t) : t.inBytes = s.inBytes := by
  unfold State.inBytes State.sbPayload State.sbLen State.sbByte
  rw [h.inByte, h.sbCount]

theorem SameInput.bitpos {s t : State} (h : SameInput s t) (hr : t.reader = s.reader) : t.bitpos = s.bitpos := by
  unfold State.bitpos State.consumed State.sbLen
  rw [h.inByte, hr]

/-- A code that leaves the engine in `RUN` fetches no further. -/
theorem CodeLeaves.reader {s t : State} {i : Instr} (h : CodeLeaves s i t) (ht : t.state = .run) : t.reader = s.reader := by
  cases h with
  | cleared => rfl
  | raised r he => cases ht
  | finished r hc => cases ht
  | first hp ho => rfl
  | assigned hp hi ho h =>
    rcases State.emitAssign_next h with ⟨ho', -⟩ | ⟨-, -, -, -, hr, -⟩
    · exact absurd ho' ho
    · exact hr

theorem RunInv.two_le_width {s : State} (h : RunInv s) : 2 ≤ s.width.toNat :=
  (Nat.succ_le_succ h.n_ge).trans h.width_ge

/-- An engine turn that stays in `RUN` has delivered a code, and `BITPOS` is past it, within the input (40 R132). -/
theorem engineStep_bitpos {s t : State} (hr : RunInv s) (hs : s.state = .run) (h : engineStep s = .next t) (ht : t.state = .run) :
    t.bitpos = s.bitpos + s.width.toNat ∧ t.bitpos ≤ 8 * s.inBytes.length := by
  rcases engineStep_cases s with ⟨hn, -⟩ | ⟨-, -, e⟩ | ⟨-, c, hc, e⟩
  · exact absurd hs hn
  · rw [e] at h
    cases h
    cases ht
  · rw [e] at h
    have hl := CodeLeaves.of_exec h (classify_ne_start _ c) (classify_ne_rst _ c)
    rw [hl.sameInput.bitpos (hl.reader ht)]
    rcases hr.reader.nextCode_cases hr.width_le with ⟨-, hnone, -⟩ | ⟨hfit, -, hadv⟩
    · rw [hnone] at hc
      cases hc
    · rw [hadv]
      exact ⟨rfl, hfit⟩

/-- The same of a step on the engine's turn. -/
theorem step_bitpos {s t : State} (hm : MachineInv s) (hs : s.state = .run) (hturn : s.engineTurn) (h : step s = .next t)
    (ht : t.state = .run) :
    t.bitpos = s.bitpos + s.width.toNat ∧ 2 ≤ s.width.toNat ∧ t.bitpos ≤ 8 * s.inBytes.length ∧ t.inBytes = s.inBytes := by
  rw [hturn.step_eq] at h
  have hadv := engineStep_bitpos (s := s.setAgenda s.agenda.tail) ((hm.setAgenda _).run hs) hs h ht
  exact ⟨hadv.1, (hm.run hs).two_le_width, hadv.2, (engineStep_sameInput h).inBytes⟩

/-! A turn never stops the machine but at the edge of the input store. -/

theorem engineStep_of_ne_run {s : State} (hs : s.state ≠ .run) : engineStep s = .next s := if_neg hs

theorem MachineInv.exists_engineStep {s : State} (hm : MachineInv s) : ∃ t, Machine.engineStep s = .next t := by
  by_cases hs : s.state = .run
  · exact (hm.run hs).exists_engineStep
  · exact ⟨s, engineStep_of_ne_run hs⟩

/-- Settles O5: in `RUN` an engine turn completes and `BITPOS` moves by at least 2; elsewhere it is the empty step. -/
theorem engineStepsExactlyInRun : Obligations.EngineStepsExactlyInRun := by
  refine ⟨fun s hm hs hturn => ?_, fun s hs => ⟨fun ha => ?_, fun rest ha => ?_⟩⟩
  · obtain ⟨t, e⟩ := (hm.setAgenda s.agenda.tail).exists_engineStep
    have hstep : step s = .next t := hturn.step_eq.trans e
    refine ⟨t, hstep, fun ht => ?_⟩
    obtain ⟨hadv, hw, -⟩ := step_bitpos hm hs hturn hstep ht
    omega
  · rw [step, ha]
    exact engineStep_of_ne_run hs
  · rw [step, ha]
    exact engineStep_of_ne_run (s := s.setAgenda rest) hs

theorem exists_hostRegWrite (r : Nat) (v : Word) (s : State) : ∃ t, hostRegWrite r v s = .next t := by
  unfold hostRegWrite
  split
  · split
    next i hv =>
      rw [decodeCtrl_ok hv]
      exact exists_execStart s
    next => exact ⟨_, rfl⟩
  · split <;> exact ⟨_, rfl⟩

/-- A host's move completes or lies beyond the input store (log 13). -/
theorem hostStep_completes_or_faults (m : HostMove) (s : State) :
    (∃ t, hostStep m s = .next t) ∨ (hostStep m s = .fault .inAddress ∧ ¬m.inStore s) := by
  cases m with
  | reset => exact .inl ⟨_, rfl⟩
  | regRead r => exact .inl ⟨_, rfl⟩
  | regWrite r v => exact .inl (exists_hostRegWrite r v s)
  | inRead a =>
    by_cases ha : a < s.inSize
    · exact .inl ⟨_, if_pos ha⟩
    · exact .inr ⟨if_neg ha, ha⟩
  | inWrite a b =>
    by_cases ha : a < s.inSize
    · exact .inl ⟨_, if_pos ha⟩
    · exact .inr ⟨if_neg ha, ha⟩
  | outRead k =>
    left
    simp only [hostStep, hostOutRead]
    split <;> exact ⟨_, rfl⟩

theorem HostMove.inAccess_of_not_inStore {m : HostMove} {s : State} (h : ¬m.inStore s) :
    ∃ a, 256 * s.cfg.sbMax ≤ a ∧ (m = .inRead a ∨ ∃ b, m = .inWrite a b) := by
  cases m with
  | inRead a => exact ⟨a, Nat.le_of_not_lt h, .inl rfl⟩
  | inWrite a b => exact ⟨a, Nat.le_of_not_lt h, .inr ⟨b, rfl⟩⟩
  | reset => exact absurd trivial h
  | regRead r => exact absurd trivial h
  | regWrite r v => exact absurd trivial h
  | outRead k => exact absurd trivial h

/-- Settles O43: an engine turn completes under the invariant, and a host's move within the store in any state. -/
theorem stepsNeverStop : Obligations.StepsNeverStop := by
  intro s hm
  rcases step_cases s with ⟨-, e⟩ | ⟨rest, -, e⟩ | ⟨m, rest, ha, e⟩ <;> rw [e]
  · exact .inl hm.exists_engineStep
  · exact .inl (hm.setAgenda rest).exists_engineStep
  · rcases hostStep_completes_or_faults m (s.setAgenda rest) with hnext | ⟨hfault, hout⟩
    · exact .inl hnext
    · obtain ⟨a, hle, hmove⟩ := HostMove.inAccess_of_not_inStore hout
      have hm? : s.hostMove? = some m := by rw [State.hostMove?, ha]
      simp only [hm?, Option.some.injEq]
      exact .inr ⟨hfault, a, hle, hmove⟩

/-! The end of a run: every turn in `RUN` halts the engine, advances `BITPOS`, or is one of the host's. -/

/-- No code touches the model's own fields. -/
theorem CodeLeaves.sameSurroundings {s t : State} {i : Instr} (h : CodeLeaves s i t) : SameSurroundings s t := by
  cases h with
  | cleared => exact ⟨rfl, rfl, rfl, rfl⟩
  | raised r he => exact ⟨rfl, rfl, rfl, rfl⟩
  | finished r hc => exact ⟨rfl, rfl, rfl, rfl⟩
  | first hp ho => exact ⟨rfl, rfl, rfl, rfl⟩
  | assigned hp hi ho h =>
    rcases State.emitAssign_next h with ⟨ho', -⟩ | ⟨-, -, -, -, -, -, -, -, hsur⟩
    · exact absurd ho' ho
    · exact hsur

theorem engineStep_agenda {s t : State} (h : engineStep s = .next t) : t.agenda = s.agenda := by
  by_cases hs : s.state = .run
  · rcases engineStep_in_run hs h with rfl | ⟨i, -, hi⟩
    · exact s.nextCode_agenda _
    · exact hi.sameSurroundings.agenda.trans (s.nextCode_agenda _)
  · rw [engineStep_outside_run hs h]

/-- The host's pending moves neither reset the block nor leave the input store: the host of 40 R132. -/
def State.hostConfined (s : State) : Prop := ∀ m, .host m ∈ s.agenda → m ≠ .reset ∧ m.inStore s

theorem HostMove.inStore_congr {s t : State} (hc : t.cfg = s.cfg) (m : HostMove) : m.inStore t ↔ m.inStore s := by
  cases m <;> simp only [HostMove.inStore, State.inSize, hc]

theorem State.hostConfined.after_turn {s t : State} (h : s.hostConfined) (ha : t.agenda = s.agenda.tail) (hc : t.cfg = s.cfg) :
    t.hostConfined := by
  intro m hm
  rw [ha] at hm
  obtain ⟨hreset, hin⟩ := h m (List.mem_of_mem_tail hm)
  exact ⟨hreset, (m.inStore_congr hc).mpr hin⟩

/-- The engine turns that suffice to end a run: one for every two bits left, and the one that is exhausted (40 R132). -/
def State.turnsLeft (s : State) : Nat := (8 * s.inBytes.length - s.bitpos) / 2 + 1

theorem State.turnsLeft_le (s : State) : s.turnsLeft ≤ 4 * s.inBytes.length + 1 := by
  rw [State.turnsLeft]
  omega

theorem hostTurns_eq_head_add_tail (l : List Turn) : hostTurns l = hostTurns (l.take 1) + hostTurns l.tail := by
  rw [hostTurns, hostTurns, hostTurns, ← List.countP_append, ← List.drop_one, List.take_append_drop]

theorem hostTurns_take_succ (l : List Turn) (k : Nat) :
    hostTurns (l.take (k + 1)) = hostTurns (l.take 1) + hostTurns (l.tail.take k) := by
  cases l with
  | nil => simp only [List.take_nil, List.tail_nil, hostTurns_nil]
  | cons u l => exact hostTurns_eq_head_add_tail (u :: l.take k)

/-- A turn of a run completes; it halts the engine, or there is one turn fewer to come, the engine's or the host's. -/
structure TurnTaken (s t : State) : Prop where
  completes : step s = .next t
  agenda : t.agenda = s.agenda.tail
  halts_or_shortens : (t.state = .done ∨ t.state = .error) ∨
    (t.state = .run ∧ t.turnsLeft + 1 ≤ hostTurns (s.agenda.take 1) + s.turnsLeft)

theorem TurnTaken.exists_of_engineTurn {s : State} (hm : MachineInv s) (hs : s.state = .run) (hturn : s.engineTurn) :
    ∃ t, TurnTaken s t := by
  obtain ⟨t, e⟩ := (hm.setAgenda s.agenda.tail).exists_engineStep
  have hstep : step s = .next t := hturn.step_eq.trans e
  refine ⟨t, hstep, engineStep_agenda e, ?_⟩
  rcases engineStep_state e with hrun | ⟨-, hhalt⟩
  · have ht : t.state = .run := hrun.trans hs
    obtain ⟨hadv, hw, hin, hbytes⟩ := step_bitpos hm hs hturn hstep ht
    refine .inr ⟨ht, ?_⟩
    rw [State.turnsLeft, State.turnsLeft, hbytes]
    omega
  · exact .inl hhalt

theorem TurnTaken.exists_of_hostTurn {s : State} (hs : s.state = .run) (hh : s.hostConfined) {m : HostMove} {rest : List Turn}
    (ha : s.agenda = .host m :: rest) : ∃ t, TurnTaken s t := by
  obtain ⟨hreset, hin⟩ := hh m (ha ▸ List.mem_cons_self)
  obtain ⟨v, n, e⟩ := hostStep_in_run (s := s.setAgenda rest) hs hreset hin
  have hstep : step s = hostStep m (s.setAgenda rest) := by rw [step, ha]
  refine ⟨_, hstep.trans e, (congrArg List.tail ha).symm, .inr ⟨hs, ?_⟩⟩
  rw [ha, List.take_succ_cons, hostTurns_host, Nat.add_comm]
  exact Nat.add_le_add_right (Nat.le_add_left 1 _) _

theorem TurnTaken.exists_in_run {s : State} (hm : MachineInv s) (hs : s.state = .run) (hh : s.hostConfined) :
    ∃ t, TurnTaken s t := by
  rcases step_cases s with ⟨ha, -⟩ | ⟨rest, ha, -⟩ | ⟨m, rest, ha, -⟩
  · exact TurnTaken.exists_of_engineTurn hm hs (.inl ha)
  · exact TurnTaken.exists_of_engineTurn hm hs (.inr ⟨rest, ha⟩)
  · exact TurnTaken.exists_of_hostTurn hs hh ha

theorem core_run_succ {s t : State} (h : step s = .next t) (k : Nat) : core.run (k + 1) s = core.run k t := by
  have hc : core.step s = .next t := h
  simp only [Host.Core.run, hc]

/-- A run ends before the turns left to it are used up, whatever the host's turns among them. -/
theorem MachineInv.run_halts {s : State} (hm : MachineInv s) (hs : s.state = .run) (hh : s.hostConfined) :
    ∃ (k : Nat) (t : State), k ≤ hostTurns (s.agenda.take k) + s.turnsLeft ∧ core.run k s = .next t ∧
      (t.state = .done ∨ t.state = .error) := by
  induction hf : hostTurns s.agenda + s.turnsLeft using Nat.strong_induction_on generalizing s with
  | _ f ih =>
    obtain ⟨t, hstep, ha, hhalt | ⟨ht, hleft⟩⟩ := TurnTaken.exists_in_run hm hs hh
    · exact ⟨1, t, (Nat.le_add_left 1 _).trans (Nat.le_add_left _ _), core_run_succ hstep 0, hhalt⟩
    · have hfewer : hostTurns t.agenda + t.turnsLeft < f := by
        have := hostTurns_eq_head_add_tail s.agenda
        rw [ha]
        omega
      have hconf := hh.after_turn ha (parametersNeverChange s t hstep)
      obtain ⟨k, u, hk, hrun, hhalt⟩ := ih _ hfewer (everyStepKeepsTheInvariant s t hm hstep) ht hconf rfl
      refine ⟨k + 1, u, ?_, (core_run_succ hstep k).trans hrun, hhalt⟩
      rw [hostTurns_take_succ, ← ha]
      omega

/-- Settles O49: by induction on the turns left, the host's and the engine's; of the engine's there are never more than
`4 T + 1`. -/
theorem everyRunEnds : Obligations.EveryRunEnds := by
  refine ⟨fun s t hm hs hturn h ht => step_bitpos hm hs hturn h ht, fun s hm hs hh => ?_⟩
  obtain ⟨k, t, hk, hrun, hhalt⟩ := hm.run_halts hs hh
  exact ⟨k, t, hk.trans (Nat.add_le_add_left s.turnsLeft_le _), hrun, hhalt⟩

end Sys2Proof.Machine
end

section
/-! The reserved codes (41): CLR restores the dictionary START leaves, and EOI halts the engine, with and without the tail
fetch. -/
namespace Sys2Proof.Machine

/-- Settles O14: CLR leaves what the packer starts with, and writes nothing else. -/
theorem clrRestoresTheStartDictionary : Obligations.ClrRestoresTheStartDictionary := by
  intro s _ hmax
  have htrack := s.clearDict_track hmax
  exact ⟨s.clearDict, rfl, congrArg Track.next htrack, congrArg Track.width htrack, congrArg Track.prevValid htrack, rfl, rfl,
    rfl, rfl, ⟨rfl, rfl⟩, CodeLeaves.cleared.sameInput, CodeLeaves.cleared.sameSurroundings⟩

theorem State.clearDict_clearDict (s : State) : s.clearDict.clearDict = s.clearDict := rfl

theorem State.beginRun_clearDict (s : State) : s.beginRun.clearDict = s.beginRun := rfl

/-- Settles O15: a cleared dictionary is cleared again to itself, and a START that leaves `RUN` has begun a run. -/
theorem clrOnAFreshDictionaryChangesNothing : Obligations.ClrOnAFreshDictionaryChangesNothing := by
  refine ⟨fun s t h => ?_, fun s t hs h ht => ?_⟩
  · cases h
    exact congrArg Host.Outcome.next s.clearDict_clearDict
  · rcases execStart_next h with ⟨hr, -⟩ | ⟨-, rfl⟩ | ⟨-, -, -, -, rfl⟩
    · exact absurd hr hs
    · cases ht
    · exact congrArg Host.Outcome.next s.clearResult.beginRun_clearDict

/-- A halt in `DONE` writes `STATE` alone (41 R142). -/
theorem State.finish_frame (s : State) : SameButStatus s s.finish :=
  ⟨⟨rfl, rfl, rfl, rfl, rfl, rfl⟩, ⟨rfl, rfl, rfl, rfl⟩, ⟨rfl, rfl, rfl, rfl⟩, ⟨rfl, rfl⟩, rfl⟩

theorem State.finalCheck_of_eq {s : State} (h : s.outCount = s.expect) : s.finalCheck = s.finish := if_pos h

theorem State.finalCheck_of_ne {s : State} (h : s.outCount ≠ s.expect) : s.finalCheck = s.raise .count := if_neg h

/-! EOI's three cases: no tail check, a code after EOI, an exhausted tail fetch (41 R142, R143). -/

theorem execEoi_of_no_tail {s : State} (h : s.cfg.tailCheck = false) : execEoi s = .next s.finalCheck := by
  simp only [execEoi_eq, h, Bool.false_eq_true, if_false]

theorem execEoi_of_tail_code {s u : State} {c : Code} (h : s.cfg.tailCheck = true)
    (hf : s.nextCode s.width.toNat = (some c, u)) : execEoi s = .next (u.raise .afterEoi) := by
  simp only [execEoi_eq, h, hf, Option.isSome_some, if_true]

theorem execEoi_of_tail_exhausted {s u : State} (h : s.cfg.tailCheck = true)
    (hf : s.nextCode s.width.toNat = (none, u)) : execEoi s = .next u.finalCheck := by
  simp only [execEoi_eq, h, hf, Option.isSome_none, Bool.false_eq_true, if_true, if_false]

/-- The tail fetch changes neither side of the count test. -/
theorem State.outCount_eq_expect_after_fetch {s u : State} {r : Option Code} {w : Nat} (hf : s.nextCode w = (r, u)) :
    u.outCount = u.expect ↔ s.outCount = s.expect := by
  have ho := s.nextCode_outCount w
  have he := s.nextCode_expect w
  rw [hf] at ho he
  rw [ho, he]

/-- Settles O17: the three cases of EOI, and the two of the count test in the first and the last. -/
theorem eoiHaltsTheEngine : Obligations.EoiHaltsTheEngine := by
  refine fun s => ⟨fun ht hc => ?_, fun ht hc => ?_, fun ht c u hf => ?_, fun ht u hf hc => ?_, fun ht u hf hc => ?_⟩
  · have hframe := s.finish_frame
    exact ⟨s.finish, (execEoi_of_no_tail ht).trans (congrArg _ (State.finalCheck_of_eq hc)), rfl, rfl, hframe.reader,
      hframe.dictionary, hframe.output, hframe.input, hframe.surroundings⟩
  · exact ⟨s.raise .count, (execEoi_of_no_tail ht).trans (congrArg _ (State.finalCheck_of_ne hc)), rfl, rfl, s.raise_frame _⟩
  · exact ⟨u.raise .afterEoi, execEoi_of_tail_code ht hf, rfl, rfl, u.raise_frame _⟩
  · have hcu := (State.outCount_eq_expect_after_fetch hf).mpr hc
    have herr : u.err = s.err := by simpa only [hf] using s.nextCode_err s.width.toNat
    exact ⟨u.finish, (execEoi_of_tail_exhausted ht hf).trans (congrArg _ (State.finalCheck_of_eq hcu)), rfl, herr,
      u.finish_frame⟩
  · have hcu := mt (State.outCount_eq_expect_after_fetch hf).mp hc
    exact ⟨u.raise .count, (execEoi_of_tail_exhausted ht hf).trans (congrArg _ (State.finalCheck_of_ne hcu)), rfl, rfl,
      u.raise_frame _⟩

end Sys2Proof.Machine
end

section
/-! The frame of the six codes (41, 42): what LIT, REF and KWK answer, and what each code leaves alone. -/
namespace Sys2Proof.Machine

/-- What a LIT that completes leaves (42 R150). -/
theorem execLit_next {k : Code} {s t : State} (h : execLit k s = .next t) :
    (s.prev = none ∧ s.overflows 1 ∧ t = s.raise .count) ∨
    (s.prev = none ∧ ¬s.overflows 1 ∧ t = (s.emit [k]).setPrev k) ∨
    (∃ p, s.prev = some p ∧ s.emitAssign [k] p k k = .next t) := by
  unfold execLit at h
  split at h
  next hp =>
    split at h <;> cases h
    next ho => exact .inl ⟨hp, ho, rfl⟩
    next ho => exact .inr (.inl ⟨hp, ho, rfl⟩)
  next p hp => exact .inr (.inr ⟨p, hp, h⟩)

/-- What a REF that completes has run (42 R151). -/
theorem execRef_next {c : Code} {s t : State} (h : execRef c s = .next t) :
    ∃ p S f, s.prev = some p ∧ s.str? c = some S ∧ s.first? c = some f ∧ s.emitAssign S p f c = .next t := by
  unfold execRef at h
  split at h
  next => cases h
  next p hp =>
    split at h
    next S f hS hf => exact ⟨p, S, f, hp, hS, hf, h⟩
    next => cases h

/-- What a KWK that completes has run (42 R152). -/
theorem execKwk_next {s t : State} (h : execKwk s = .next t) :
    ∃ p S f, s.prev = some p ∧ ¬s.dictFull ∧ s.str? p = some S ∧ s.first? p = some f ∧
      s.emitAssign (S ++ [f]) p f (s.next.setWidth 12) = .next t := by
  unfold execKwk at h
  split at h
  next => cases h
  next p hp =>
    split at h
    next => cases h
    next hroom =>
      split at h
      next S f hS hf => exact ⟨p, S, f, hp, hroom, hS, hf, h⟩
      next => cases h

/-- What a data code leaves alone: the reader, every slot but `NEXT`, and every entry of `OUT` outside those it counts in. -/
structure DataFrame (s t : State) : Prop where
  reader : t.reader = s.reader
  slots : ∀ c, c ≠ s.next.toNat → t.dict.read? c = s.dict.read? c
  count_le : s.outCount.toNat ≤ t.outCount.toNat
  entries : ∀ k, k < s.outCount.toNat ∨ t.outCount.toNat ≤ k → t.out.read? k = s.out.read? k

theorem DataFrame.of_raise (s : State) (e : ErrCode) : DataFrame s (s.raise e) :=
  ⟨rfl, fun _ _ => rfl, Nat.le_refl _, fun _ _ => rfl⟩

theorem DataFrame.of_emitted {s t : State} {S : List LzwSym} (he : Emitted S s t) (hr : t.reader = s.reader)
    (hd : ∀ c, c ≠ s.next.toNat → t.dict.read? c = s.dict.read? c) : DataFrame s t :=
  ⟨hr, hd, he.count ▸ Nat.le_add_right _ _, fun k hk => he.others k (he.count ▸ hk)⟩

/-- The shared tail of LIT, REF and KWK. -/
theorem DataFrame.of_emitAssign {s t : State} {S : List LzwSym} {p : Code} {x : LzwSym} {c : Code}
    (h : s.emitAssign S p x c = .next t) : DataFrame s t := by
  rcases State.emitAssign_next h with ⟨-, rfl⟩ | ⟨-, he, ha, -, hr, -⟩
  · exact .of_raise s .count
  · exact .of_emitted he hr ha.others

theorem DataFrame.of_execLit {k : Code} {s t : State} (h : execLit k s = .next t) : DataFrame s t := by
  rcases execLit_next h with ⟨-, -, rfl⟩ | ⟨-, ho, rfl⟩ | ⟨p, -, h⟩
  · exact .of_raise s .count
  · obtain ⟨hcount, hentries, hothers⟩ := s.emit_emitted [k] ho
    exact .of_emitted ⟨hcount, hentries, hothers⟩ rfl fun _ _ => rfl
  · exact .of_emitAssign h

theorem DataFrame.of_execRef {c : Code} {s t : State} (h : execRef c s = .next t) : DataFrame s t := by
  obtain ⟨p, S, f, -, -, -, h⟩ := execRef_next h
  exact .of_emitAssign h

theorem DataFrame.of_execKwk {s t : State} (h : execKwk s = .next t) : DataFrame s t := by
  obtain ⟨p, S, f, -, -, -, -, h⟩ := execKwk_next h
  exact .of_emitAssign h

/-- EOI touches neither the dictionary nor the output, whether it halts or raises (41 R142). -/
theorem CodeLeaves.eoi_frame {s t : State} (h : CodeLeaves s .eoi t) : SameDictionary s t ∧ SameOutput s t := by
  cases h with
  | raised r he => exact ⟨⟨rfl, rfl, rfl, rfl⟩, ⟨rfl, rfl⟩⟩
  | finished r hc => exact ⟨⟨rfl, rfl, rfl, rfl⟩, ⟨rfl, rfl⟩⟩
  | assigned hp hi ho h => cases hi

theorem State.finalCheck_reader (s : State) : s.finalCheck.reader = s.reader := by
  rcases s.finalCheck_cases with ⟨-, e⟩ | ⟨-, e⟩ <;> rw [e]
  · exact s.finish_reader
  · exact s.raise_reader .count

/-- Settles O25: no code writes the input or the model's own fields; of the rest, each code's own frame. -/
theorem codesLeaveTheRestAlone : Obligations.CodesLeaveTheRestAlone := by
  refine fun s t => ⟨fun i hi h => ?_, fun h => ?_, fun h => ?_, fun i hi h => ?_, fun c h => ?_⟩
  · have hcode : i ≠ .start ∧ i ≠ .rst := by
      rcases hi with rfl | rfl | rfl | ⟨c, rfl | rfl | rfl⟩ <;> exact ⟨nofun, nofun⟩
    have hleaves := CodeLeaves.of_exec h hcode.1 hcode.2
    exact ⟨hleaves.sameInput, hleaves.sameSurroundings⟩
  · cases h
    exact ⟨rfl, rfl, ⟨rfl, rfl⟩, rfl, rfl⟩
  · obtain ⟨hdict, hout⟩ := (CodeLeaves.of_execEoi h).eoi_frame
    refine ⟨hdict, hout, fun ht => ?_⟩
    obtain rfl : s.finalCheck = t := by simpa using (execEoi_of_no_tail ht).symm.trans h
    exact s.finalCheck_reader
  · have hframe : DataFrame s t := by
      rcases hi with rfl | ⟨c, rfl | rfl⟩
      · exact .of_execKwk h
      · exact .of_execLit h
      · exact .of_execRef h
    exact ⟨hframe.reader, hframe.slots, hframe.count_le, hframe.entries⟩
  · cases h
    have hframe := s.raise_frame .unassigned
    exact ⟨hframe.reader, hframe.dictionary, hframe.output⟩

end Sys2Proof.Machine
end

section
/-! The data codes (42): what LIT, REF and KWK run where their requirements hold, and where they do not. -/
namespace Sys2Proof.Machine

/-! Each instruction as its shared tail, on the operands 42 R150 to R152 give it. -/

theorem execLit_of_prev {s : State} {k p : Code} (hp : s.prev = some p) : execLit k s = s.emitAssign [k] p k k := by
  rw [execLit, hp]

theorem execRef_of_string {s : State} {c p : Code} {S : List LzwSym} {f : LzwSym} (hp : s.prev = some p)
    (hS : s.str? c = some S) (hf : s.first? c = some f) : execRef c s = s.emitAssign S p f c := by
  simp only [execRef, hp, hS, hf]

theorem execKwk_of_string {s : State} {p : Code} {S : List LzwSym} {f : LzwSym} (hp : s.prev = some p)
    (hroom : s.next.toNat < dictSize) (hS : s.str? p = some S) (hf : s.first? p = some f) :
    execKwk s = s.emitAssign (S ++ [f]) p f (s.next.setWidth 12) := by
  simp only [execKwk, hp, if_neg (Nat.not_le_of_lt hroom), hS, hf]

/-- `NEXT` is a code as long as the dictionary is not full (42 R152). -/
theorem State.next_setWidth_toNat {s : State} (hroom : s.next.toNat < dictSize) :
    (s.next.setWidth 12).toNat = s.next.toNat := by
  rw [BitVec.toNat_setWidth]
  exact Nat.mod_eq_of_lt hroom

/-- The shared tail from a known predecessor, where the output has room: it completes with its whole effect (42 R150 to R152). -/
theorem State.emitAssign_effect (S : List LzwSym) {p : Code} (x : LzwSym) (c : Code) {s : State} (hk : s.known p)
    (ho : s.outCount.toNat + S.length ≤ s.expect.toNat) :
    ∃ t, s.emitAssign S p x c = .next t ∧ Emitted S s t ∧ Assigned p x s t ∧ t.prev = some c ∧ t.reader = s.reader ∧
      t.state = s.state ∧ t.err = s.err ∧ SameInput s t ∧ SameSurroundings s t := by
  have hfits : ¬s.overflows S.length := Nat.not_lt_of_le ho
  obtain ⟨t, ht⟩ := s.emitAssign_completes S p x c hk hfits
  rcases State.emitAssign_next ht with ⟨hover, -⟩ | ⟨-, heffect⟩
  · exact absurd hover hfits
  · exact ⟨t, ht, heffect⟩

/-- Settles O18: LIT is then the emission alone, and `PREV`. -/
theorem litWithoutPredecessor : Obligations.LitWithoutPredecessor := by
  intro s k hp ho
  have hfits : ¬s.overflows 1 := Nat.not_lt_of_le ho
  have hexec : exec (.lit k) s = .next ((s.emit [k]).setPrev k) := by
    simp only [exec, execLit, hp, if_neg hfits]
  obtain ⟨hcount, hentries, hothers⟩ := s.emit_emitted [k] hfits
  have hleaves : CodeLeaves s (.lit k) ((s.emit [k]).setPrev k) := .first hp hfits
  exact ⟨_, hexec, ⟨hcount, hentries, hothers⟩, rfl, rfl, rfl, rfl, rfl, rfl, rfl, hleaves.sameInput, hleaves.sameSurroundings⟩

/-- Settles O19: LIT is the shared tail on its own symbol. -/
theorem litWithPredecessor : Obligations.LitWithPredecessor := by
  intro s k p hp hk ho
  rw [exec, execLit_of_prev hp]
  exact State.emitAssign_effect [k] k k hk ho

/-- Settles O20: REF is the shared tail on the string of its code and that string's first symbol. -/
theorem refOutputsItsString : Obligations.RefOutputsItsString := by
  intro s c p S f hp hk hS hf ho
  rw [exec, execRef_of_string hp hS hf]
  exact State.emitAssign_effect S f c hk ho

/-- Settles O21: KWK is the shared tail on the previous string and its first symbol, and `NEXT` is a code. -/
theorem kwkExtendsThePreviousString : Obligations.KwkExtendsThePreviousString := by
  intro s p S f hp hk hS hf hroom ho
  have ho' : s.outCount.toNat + (S ++ [f]).length ≤ s.expect.toNat := by
    rw [List.length_append, List.length_singleton]
    omega
  obtain ⟨t, ht, hem, ha, hprev, hrest⟩ := State.emitAssign_effect (S ++ [f]) f (s.next.setWidth 12) hk ho'
  exact ⟨t, _, (execKwk_of_string hp hroom hS hf).trans ht, hem, ha, hprev, State.next_setWidth_toNat hroom, hrest⟩

/-- Settles O23: the raise writes `STATE` and `ERR` alone. -/
theorem unassignedRaises : Obligations.UnassignedRaises := fun s _ =>
  ⟨s.raise .unassigned, rfl, rfl, rfl, s.raise_frame .unassigned⟩

/-! A code that is not bound has no slot, so neither a first symbol nor a string (10 R42). -/

theorem State.slot?_of_not_bound {s : State} {c : Code} (h : ¬s.bound c) : s.slot? c = none := if_neg (not_or.mp h).2

theorem State.first?_of_not_bound {s : State} {c : Code} (h : ¬s.bound c) : s.first? c = none := by
  rw [State.first?, if_neg (not_or.mp h).1, State.slot?_of_not_bound h, Option.map_none]

theorem State.str?_of_not_bound {s : State} {c : Code} (h : ¬s.bound c) : s.str? c = none := by
  rw [State.str?, State.strWithin, if_neg (not_or.mp h).1, State.slot?_of_not_bound h]

theorem State.bound_of_str? {s : State} {c : Code} {S : List LzwSym} (h : s.str? c = some S) : s.bound c := by
  by_contra hb
  rw [State.str?_of_not_bound hb] at h
  cases h

/-- The shared tail stops at the assignment when there is room for it and the predecessor is not bound (log 11). -/
theorem State.emitAssign_of_not_bound (S : List LzwSym) {p : Code} (x : LzwSym) (c : Code) {s : State} (hb : ¬s.bound p)
    (ho : s.outCount.toNat + S.length ≤ s.expect.toNat) (hroom : s.next.toNat < dictSize) :
    s.emitAssign S p x c = .fault .unboundCode := by
  rcases s.emitAssign_cases S p x c with ⟨hover, -⟩ | ⟨-, u, hu, -⟩ | ⟨-, -, e⟩
  · exact absurd hover (Nat.not_lt_of_le ho)
  · obtain ⟨f, -, hf, -⟩ := (State.assign?_assigned hu).slot hroom
    rw [State.emit_first?, State.first?_of_not_bound hb] at hf
    cases hf
  · exact e

/-- Settles O24: each stop is the instruction's own test, or a string that cannot be read. -/
theorem dataCodesStopOutsideTheirRequirements : Obligations.DataCodesStopOutsideTheirRequirements := by
  refine fun s => ⟨fun hp => ⟨fun c => ?_, ?_⟩, fun p hp => ⟨fun hfull => ?_, fun c hb => ?_, fun hroom hb => ?_,
    fun k hroom hb ho => ?_⟩⟩
  · rw [exec, execRef, hp]
  · rw [exec, execKwk, hp]
  · have hfull' : s.dictFull := Nat.le_of_eq hfull.symm
    simp only [exec, execKwk, hp, if_pos hfull']
  · simp only [exec, execRef, hp, State.str?_of_not_bound hb]
  · have hroom' : ¬s.dictFull := Nat.not_le_of_lt hroom
    simp only [exec, execKwk, hp, if_neg hroom', State.str?_of_not_bound hb]
  · rw [exec, execLit_of_prev hp]
    exact State.emitAssign_of_not_bound [k] k k hb ho hroom

end Sys2Proof.Machine
end

section
/-! The growth of the dictionary (42 R154 to R159): the width, the string a data code binds, and the two ends of the range of
assigned codes: none directly after CLR, all of them in a full dictionary. -/
namespace Sys2Proof.Machine

/-- Settles O26: with `NEXT` below `2^WIDTH` the growth test asks whether `NEXT + 1` is `2^WIDTH`. -/
theorem widthGrowsWhenNextPassesIt : Obligations.WidthGrowsWhenNextPassesIt := by
  refine fun s e => ⟨fun hnext hwidth => ?_, fun hwidth hnext => ?_⟩
  · have hpow : 2 ^ s.width.toNat ≤ 2 ^ 12 := Nat.pow_le_pow_right (by decide) hwidth
    have hpos : 0 < 2 ^ s.width.toNat := Nat.two_pow_pos _
    have hroom : ¬s.dictFull := by simp only [State.dictFull, dictSize]; omega
    have htest : 2 ^ s.width.toNat - 1 < s.next.toNat + 1 ↔ s.next.toNat + 1 = 2 ^ s.width.toNat := by omega
    simp only [(s.bindSlot_growWidth_toNat e hroom).2, htest, codeMaxW]
  · have hroom : ¬s.dictFull := by simp only [State.dictFull, dictSize]; omega
    obtain ⟨hn, hw⟩ := s.bindSlot_growWidth_toNat e hroom
    rw [hn, hw, hwidth, hnext]
    exact ⟨rfl, rfl⟩

/-- The string of a code begins with its recorded first symbol (10 R43). -/
theorem DictInv.first?_eq_head? {s : State} (hd : DictInv s) {c : Code} {S : List LzwSym} (hS : s.str? c = some S) :
    s.first? c = S.head? := by
  obtain ⟨S', hS', hok⟩ := hd.str?_stringOk (State.bound_of_str? hS)
  obtain rfl : S = S' := Option.some.inj (hS.symm.trans hS')
  obtain ⟨f, hf, hhead⟩ := hok.first
  exact hf.trans hhead.symm

/-- As many links as the code's number read the whole string (10 R44). -/
theorem DictInv.strWithin_of_str? {s : State} (hd : DictInv s) {c : Code} {S : List LzwSym} (hS : s.str? c = some S) {f : Nat}
    (hlt : c.toNat < f) (hf : f ≤ dictSize) : s.strWithin f c = some S := by
  obtain ⟨S', hS', -⟩ := hd.strWithin_stringOk f c (State.bound_of_str? hS) hlt
  rw [hS']
  exact (s.strWithin_mono hf c S' hS').symm.trans hS

/-- What `Assign(p, x)` binds the old `NEXT` to: the string of `p` and `x` (42 R154). -/
theorem EngineInv.str?_assigned {s t : State} {p q : Code} {x : LzwSym} {P : List LzwSym} (h : EngineInv s) (hn : t.n = s.n)
    (ha : Assigned p x s t) (hP : s.str? p = some P) (hroom : s.next.toNat < dictSize) (hq : q.toNat = s.next.toNat) :
    t.str? q = some (P ++ [x]) := by
  have hk := KeepsSlots.of_assigned hn ha
  have hp : s.bound p := State.bound_of_str? hP
  have hge := h.next_ge
  have hnext := ha.next
  rw [if_pos hroom] at hnext
  have hassigned : t.assigned q := ⟨by rwa [hn, hq], by omega⟩
  have hlt : p.toNat < 4095 := by
    simp only [firstFree, dictSize] at hge hroom
    rcases hp with hlit | hasg
    · omega
    · have := hasg.2
      omega
  obtain ⟨f, l, -, -, hslot⟩ := ha.slot hroom
  rw [← hq] at hslot
  have hchain : t.strWithin 4095 p = some P :=
    (hk.strWithin_eq h.dict 4095 hp).trans (h.dict.strWithin_of_str? hP hlt (by decide))
  calc t.str? q = (t.strWithin 4095 p).map (· ++ [x]) := State.strWithin_assigned 4095 hassigned hslot
    _ = some (P ++ [x]) := by rw [hchain, Option.map_some]

/-- The shared tail of LIT, REF and KWK that leaves the engine in `RUN` (42 R154, R159). -/
theorem RunInv.str?_emitAssign {s t : State} {S P : List LzwSym} {p c q : Code} {x : LzwSym} (hr : RunInv s)
    (hP : s.str? p = some P) (hroom : s.next.toNat < dictSize) (hq : q.toNat = s.next.toNat)
    (h : s.emitAssign S p x c = .next t) (ht : t.state = .run) :
    t.str? q = some (P ++ [x]) ∧ t.prev = some c ∧ Emitted S s t := by
  obtain ⟨-, he, -, -⟩ := (runInv_iff s).mp hr
  rcases State.emitAssign_next h with ⟨-, rfl⟩ | ⟨-, hem, ha, hprev, -, -, -, hin, -⟩
  · cases ht
  · exact ⟨he.str?_assigned hin.n ha hP hroom hq, hprev, hem⟩

/-- Settles O28: each of the three is the shared tail, whose symbol is the head of the string the code stands for. -/
theorem assignedStringIsPreviousPlusFirst : Obligations.AssignedStringIsPreviousPlusFirst := by
  intro s t i p q P hr hp hP hroom hq h hst hs
  have ht : t.state = .run := hst.trans hs
  refine ⟨fun k _ hi => ?_, fun c S f hi hS hhead => ?_, fun f hi hhead => ?_⟩ <;> subst hi
  · rw [exec, execLit_of_prev hp] at h
    exact (hr.str?_emitAssign hP hroom hq h ht).1
  · have hf : s.first? c = some f := (hr.dict.first?_eq_head? hS).trans hhead
    rw [exec, execRef_of_string hp hS hf] at h
    exact (hr.str?_emitAssign hP hroom hq h ht).1
  · have hf : s.first? p = some f := (hr.dict.first?_eq_head? hP).trans hhead
    have hcode : s.next.setWidth 12 = q := BitVec.eq_of_toNat_eq ((State.next_setWidth_toNat hroom).trans hq.symm)
    rw [exec, execKwk_of_string hp hroom hP hf, hcode] at h
    exact hr.str?_emitAssign hP hroom hq h ht

/-- The context CLR leaves is legal (30 R93, 41 R141). -/
theorem State.clearDict_legal {s : State} (hmin : nMin ≤ s.n) (hmax : s.n ≤ nMax) : s.clearDict.ctx.Legal := by
  have hnext : s.clearDict.next.toNat = firstFree s.n := congrArg Track.next (s.clearDict_track hmax)
  have hpow := Laws.RoundTrip.pow_le hmax
  refine ⟨hmin, hmax, hnext.ge, ?_, fun _ => hnext⟩
  show s.clearDict.next.toNat ≤ dictSize
  rw [hnext, firstFree, clearCode, dictSize]
  omega

/-- Settles O16: after CLR there is no predecessor, and without one the whole range is unassigned. -/
theorem nothingIsAssignedAfterClr : Obligations.NothingIsAssignedAfterClr := by
  intro s t c hmin hmax h hc
  cases h
  exact (classify_eq_unassigned_iff (State.clearDict_legal hmin hmax) c).mpr (.inr (.inr ⟨hc, rfl⟩))

/-- Without a predecessor nothing is assigned, so a full dictionary has one (30 R93). -/
theorem prevValid_of_full {x : CodeCtx} (hx : x.Legal) (hfull : x.next.toNat = dictSize) : x.prevValid = true := by
  obtain ⟨-, hmax, -, -, hempty⟩ := hx
  have hpow := Laws.RoundTrip.pow_le hmax
  refine Bool.eq_true_of_not_eq_false fun hp => ?_
  have := hempty hp
  simp only [firstFree, clearCode, dictSize] at this hfull
  omega

/-- Settles O30: a code that is neither a literal nor reserved lies from `FIRST_FREE` up, and below `NEXT = 4096`. -/
theorem fullDictionaryLeavesNoCodeUnassigned : Obligations.FullDictionaryLeavesNoCodeUnassigned := by
  intro x c hx hfull hclear heoi
  split
  next hlit => exact (classify_eq_lit_iff hx c).mpr hlit
  next hlit =>
    have hge : firstFree x.n ≤ c.toNat := by rw [firstFree, clearCode]; omega
    have hlt : c.toNat < x.next.toNat := hfull ▸ c.isLt
    exact (classify_eq_ref_iff hx c).mpr ⟨prevValid_of_full hx hfull, hge, hlt⟩

end Sys2Proof.Machine
end

section
/-! The output buffer (43): the codes whose emission would pass `EXPECT`, the result of a halted state, and the host's reads. -/
namespace Sys2Proof.Machine

/-! `E_COUNT` (43 R171). -/

theorem State.emitAssign_of_overflow {s : State} {S : List LzwSym} (p : Code) (x : LzwSym) (c : Code)
    (ho : s.overflows S.length) : s.emitAssign S p x c = .next (s.raise .count) := if_pos ho

/-- A LIT that overflows, with and without a predecessor (42 R150). -/
theorem execLit_of_overflow {s : State} (k : Code) (ho : s.overflows 1) : execLit k s = .next (s.raise .count) := by
  cases hp : s.prev with
  | none => simp only [execLit, hp, if_pos ho]
  | some p => exact (execLit_of_prev hp).trans (State.emitAssign_of_overflow p k k ho)

/-- An answer that is a raise leaves everything but `STATE` and `ERR` (60 R200). -/
theorem State.raise_effect {s : State} {a : Answer} {e : ErrCode} (h : a = .next (s.raise e)) :
    ∃ t, a = .next t ∧ t.state = .error ∧ t.err = e ∧ SameButStatus s t :=
  ⟨s.raise e, h, s.raise_state e, s.raise_err e, s.raise_frame e⟩

/-- Settles O22: LIT, REF and KWK come to the count test before they write anything, and it raises. -/
theorem overflowingEmissionWritesNothing : Obligations.OverflowingEmissionWritesNothing := by
  refine fun s => ⟨fun k ho => ?_, fun c p S f hp hS hf ho => ?_, fun p S f hp hS hf hroom ho => ?_⟩
  · exact State.raise_effect (execLit_of_overflow k ho)
  · exact State.raise_effect ((execRef_of_string hp hS hf).trans (State.emitAssign_of_overflow p f c ho))
  · have ho' : s.overflows (S ++ [f]).length := by
      rw [List.length_append, List.length_singleton]
      exact ho
    exact State.raise_effect ((execKwk_of_string hp hroom hS hf).trans (State.emitAssign_of_overflow p f _ ho'))

/-! The result (10 R47). -/

/-- In `DONE` the result has an entry for each index expected. -/
theorem State.result_of_done {s : State} (hs : s.state = .done) :
    ∃ l, s.result = .ok l ∧ l.length = s.expect.toNat ∧ ∀ k < s.expect.toNat, l[k]? = some (s.resultEntry k) := by
  refine ⟨(List.range s.expect.toNat).map s.resultEntry, ?_, by simp, fun k hk => by simp [hk]⟩
  rw [State.result, hs]

/-- `DONE` with the count exact: every entry of the result is the index emitted there, and below `2^n` (43 R172, R174). -/
theorem OutputInv.result_of_done {s : State} (h : OutputInv s) (hs : s.state = .done) (hc : s.outCount = s.expect) :
    ∃ l, s.result = .ok l ∧ l.length = s.expect.toNat ∧ (∀ x ∈ l, x.toNat < clearCode s.n) ∧
      ∀ k < l.length, s.out.read? k = l[k]? := by
  obtain ⟨l, hl, hlen, hget⟩ := State.result_of_done hs
  have hentry : ∀ k < l.length, ∃ x, s.out.read? k = some x ∧ l[k]? = some x ∧ x.toNat < clearCode s.n := by
    intro k hk
    have hcount : k < s.outCount.toNat := by rwa [hc, ← hlen]
    obtain ⟨x, hx, hlt⟩ := h.out_lt k hcount
    exact ⟨x, hx, (hget k (hlen ▸ hk)).trans (congrArg some (State.resultEntry_emitted hs hcount hx)), hlt⟩
  refine ⟨l, hl, hlen, fun x hx => ?_, fun k hk => ?_⟩
  · obtain ⟨k, hk⟩ := List.mem_iff_getElem?.mp hx
    obtain ⟨y, -, hy, hlt⟩ := hentry k (List.getElem?_eq_some_iff.mp hk).1
    rwa [Option.some.inj (hk.symm.trans hy)]
  · obtain ⟨x, hx, hx', -⟩ := hentry k hk
    exact hx.trans hx'.symm

/-! The step that enters `DONE` (43 R172). -/

/-- Of the codes, only an EOI that finds the count exact enters `DONE`. -/
theorem CodeLeaves.eq_eoi_of_done {s t : State} {i : Instr} (h : CodeLeaves s i t) (hs : s.state = .run) (ht : t.state = .done) :
    i = .eoi ∧ s.outCount = s.expect := by
  have hkept : t.state ≠ s.state := by simp [ht, hs]
  cases h with
  | cleared => exact absurd rfl hkept
  | raised r he => cases ht
  | finished r hc => exact ⟨rfl, hc⟩
  | first hp ho => exact absurd rfl hkept
  | assigned hp hi ho h =>
    rcases State.emitAssign_next h with ⟨ho', -⟩ | ⟨-, -, -, -, -, hst, -⟩
    · exact absurd ho' ho
    · exact absurd hst hkept

/-- An engine turn that enters `DONE` is the fetch of an EOI, which leaves the output as it stands, the count exact. -/
theorem engineStep_outputInv_of_done {s t : State} (hr : RunInv s) (hs : s.state = .run) (h : engineStep s = .next t)
    (ht : t.state = .done) : OutputInv t ∧ t.outCount = t.expect := by
  rcases engineStep_in_run hs h with rfl | ⟨i, -, hi⟩
  · cases ht
  · obtain ⟨rfl, hc⟩ := hi.eq_eoi_of_done ((s.nextCode_state _).trans hs) ht
    obtain ⟨-, hout⟩ := hi.eoi_frame
    obtain ⟨-, -, houtput, -⟩ := (runInv_iff _).mp hr.nextCode
    exact ⟨houtput.congr hi.sameInput hout, hout.outCount.trans (hc.trans hi.sameInput.expect.symm)⟩

/-- No host's move enters `DONE`. -/
theorem HostLeaves.state_ne_done {s t : State} {m : HostMove} (h : HostLeaves s m t) (hs : s.state = .run) :
    t.state ≠ .done := by
  intro ht
  rcases h.state (by simp [ht, hs]) with ⟨e, -⟩ | ⟨e | ⟨e, -⟩, -⟩ <;> simp [ht] at e

theorem step_outputInv_of_done {s t : State} (hm : MachineInv s) (hs : s.state = .run) (h : step s = .next t)
    (ht : t.state = .done) : OutputInv t ∧ t.outCount = t.expect := by
  rcases step_next h with ⟨rest, -, h⟩ | ⟨m, rest, -, h⟩
  · exact engineStep_outputInv_of_done ((hm.setAgenda rest).run hs) hs h ht
  · exact absurd ht (h.state_ne_done hs)

/-- Settles O48: only EOI's count test enters `DONE`, and below `OUT_COUNT` the result's entries are the indices emitted. -/
theorem doneMeansTheExactCount : Obligations.DoneMeansTheExactCount := by
  refine ⟨fun s t hm hs h ht => ?_, fun s hs => ?_, fun s hs => by rw [State.result, hs], fun s hs => ?_⟩
  · obtain ⟨houtput, hc⟩ := step_outputInv_of_done hm hs h ht
    rw [← t.expect_toNat.1]
    exact ⟨congrArg BitVec.toNat hc, houtput.result_of_done ht hc⟩
  · obtain ⟨l, hl, hlen, hget⟩ := State.result_of_done hs
    exact ⟨l, hl, hlen, fun k x hk hke hx => (hget k hke).trans (congrArg some (State.resultEntry_emitted hs hk hx))⟩
  · rcases hs with hs | hs <;> rw [State.result, hs]

/-! OutRead (43 R173). -/

theorem State.outEntry?_of_emitted {s : State} {k : Nat} (hs : s.state ≠ .run) (hk : k < s.outCount.toNat) :
    s.outEntry? k = s.out.read? k := if_neg (not_or.mpr ⟨hs, Nat.not_le_of_lt hk⟩)

theorem hostOutRead_of_entry {s : State} {k : Nat} {x : LzwSym} (h : s.outEntry? k = some x) :
    hostOutRead k s = .next (s.answer (x.setWidth 32)) := by
  rw [hostOutRead, h]

/-- A read that the rules leave unspecified draws a free value (log 6). -/
theorem hostOutRead_of_no_entry {s : State} {k : Nat} (h : s.outEntry? k = none) :
    hostOutRead k s = .next { s.answer (Config.freeOutRead s.freeCtr) with freeCtr := s.freeCtr + 1 } := by
  rw [hostOutRead, h]

/-- Settles O40: either kind of read answers a word, and an index emitted in this run is read as itself. -/
theorem outputReadsReturnTheIndex : Obligations.OutputReadsReturnTheIndex := by
  intro s rest k ha
  have hstep : step s = hostOutRead k (s.setAgenda rest) := by
    rw [step, ha]
    rfl
  rw [hstep]
  refine ⟨?_, fun x hs hk hx => ?_⟩
  · cases he : (s.setAgenda rest).outEntry? k with
    | some x => exact ⟨x.setWidth 32, s.freeCtr, hostOutRead_of_entry he⟩
    | none => exact ⟨_, _, hostOutRead_of_no_entry he⟩
  · have he : (s.setAgenda rest).outEntry? k = some x := (State.outEntry?_of_emitted hs hk).trans hx
    rw [BitVec.ofNat_toNat]
    exact hostOutRead_of_entry he

end Sys2Proof.Machine
end

section
/-! The host's commands and accesses (44): RST and START by the outcome of its tests, then the registers and the input store. -/
namespace Sys2Proof.Machine

/-- The step on the host's turn is the host's move, in a state with that turn used up (log 7). -/
theorem step_of_host_move {s : State} {m : HostMove} {rest : List Turn} (ha : s.agenda = .host m :: rest) :
    step s = hostStep m (s.setAgenda rest) := by rw [step, ha]

/-! RST and START (44 R180 to R182). -/

theorem State.status_of_idle {s : State} (hs : s.state = .idle) (he : s.err = .none) : s.status = 0 := by
  rw [State.status, hs, he]
  decide

theorem State.expect_of_no_image {s : State} (hw : s.imgW = 0) (hh : s.imgH = 0) : s.expect = 0 := by
  rw [State.expect, hw, hh]
  decide

/-- Settles O2: RST writes the table's registers, and `STATUS` and `EXPECT` follow from those it wrote. -/
theorem rstLeavesTheResetTable : Obligations.RstLeavesTheResetTable := fun _ =>
  ⟨_, rfl, rfl, rfl, rfl, rfl, rfl, rfl, rfl, rfl, rfl, State.status_of_idle rfl rfl, State.expect_of_no_image rfl rfl, rfl, rfl, rfl⟩

/-- START in `RUN` (44 R182). -/
theorem execStart_of_run {s : State} (hs : s.state = .run) : execStart s = .next s := if_pos hs

/-- START outside `RUN`, its three tests passed (44 R181). -/
theorem execStart_of_good {s : State} (hs : s.state ≠ .run) (hmcs : ¬s.badMcs) (hbig : ¬s.tooBig) (hmany : ¬s.tooMany) :
    execStart s = .next s.clearResult.beginRun := by
  rw [execStart, if_neg hs, if_neg hmcs, if_neg hbig, if_neg hmany]

/-- START outside `RUN`, one of its three tests failed (44 R181). -/
theorem execStart_of_bad {s : State} (hs : s.state ≠ .run) (hbad : s.badMcs ∨ s.tooBig ∨ s.tooMany) :
    execStart s = .next (s.clearResult.raise .config) := by
  obtain ⟨t, e⟩ := exists_execStart s
  rcases execStart_next e with ⟨hr, -⟩ | ⟨-, rfl⟩ | ⟨-, hmcs, hbig, hmany, -⟩
  · exact absurd hr hs
  · exact e
  · exact absurd hbad (by simp only [hmcs, hbig, hmany, or_self, not_false_eq_true])

/-- Settles O31: the tests pass, so the run begins with the reader at position 0 and what the packer starts with. -/
theorem startBeginsARun : Obligations.StartBeginsARun := by
  intro s hs hmin hmax hcap hslots
  have hmcs : ¬s.badMcs := not_or.mpr ⟨Nat.not_lt_of_le hmin, Nat.not_lt_of_le hmax⟩
  have e := execStart_of_good hs hmcs (Nat.not_lt_of_le hcap) (Nat.not_lt_of_le hslots)
  have htrack := execStart_track hs e rfl
  have hbitpos := (readerInv_of_empty (execStart_reader hs e rfl)).2
  exact ⟨_, e, rfl, rfl, rfl, rfl, hbitpos, congrArg Track.width htrack, congrArg Track.next htrack, rfl, rfl, rfl,
    ⟨rfl, rfl, rfl, rfl, rfl, rfl⟩, ⟨rfl, rfl, rfl, rfl⟩⟩

/-- Settles O32: a failed test raises `E_CONFIG`, after `ERR` and `OUT_COUNT` have been cleared. -/
theorem startRefusesABadConfiguration : Obligations.StartRefusesABadConfiguration := fun _ hs hbad =>
  ⟨_, execStart_of_bad hs (or_assoc.mpr hbad), rfl, rfl, rfl, rfl, rfl,
    ⟨rfl, rfl, rfl, rfl⟩, ⟨rfl, rfl, rfl, rfl, rfl, rfl⟩, ⟨rfl, rfl, rfl, rfl⟩⟩

/-- Settles O33: the test of `STATE` comes first. -/
theorem startInRunIsIgnored : Obligations.StartInRunIsIgnored := fun _ hs => execStart_of_run hs

/-! Registers (44 R183, 10 R29). -/

/-- No register has a number from 8 up (10 R29). -/
theorem State.regRead_of_ge (s : State) {r : Nat} (hr : 8 ≤ r) : s.regRead r = 0 := by
  obtain ⟨k, rfl⟩ := Nat.exists_eq_add_of_le' hr
  rfl

/-- Settles O36: the word returned is the register's, and nothing else is written. -/
theorem registerReadsReturnTheRegister : Obligations.RegisterReadsReturnTheRegister := by
  intro s rest r ha
  refine ⟨(s.setAgenda rest).answer (s.regRead r), step_of_host_move ha,
    ⟨⟨rfl, rfl, rfl, rfl, rfl, rfl⟩, ⟨rfl, rfl, rfl, rfl⟩, ⟨rfl, rfl, rfl, rfl⟩, ⟨rfl, rfl⟩, rfl⟩, rfl, rfl, ?_⟩
  refine ⟨?_, ?_, ?_, ?_, ?_, ?_, ?_, ?_⟩
  · rintro (rfl | hr)
    · rfl
    · exact s.regRead_of_ge hr
  all_goals rintro rfl
  case refine_3 | refine_4 | refine_5 => exact BitVec.toNat_setWidth_of_le (by decide)
  all_goals rfl

/-- A read-only or missing register stores nothing (44 R183). -/
theorem State.configWrite_ignored (s : State) {r : Nat} (v : Word) (hr : r = 1 ∨ r = 5 ∨ r = 6 ∨ 8 ≤ r) :
    s.configWrite r v = s := by
  rcases hr with rfl | rfl | rfl | hr
  · rfl
  · rfl
  · rfl
  · obtain ⟨k, rfl⟩ := Nat.exists_eq_add_of_le' hr
    rfl

theorem hostRegWrite_of_run {r : Nat} (v : Word) {s : State} (hr : r ≠ 0) (hs : s.state = .run) :
    hostRegWrite r v s = .next s := by
  rw [hostRegWrite, if_neg hr, if_pos hs]

theorem hostRegWrite_of_ne_run {r : Nat} (v : Word) {s : State} (hr : r ≠ 0) (hs : s.state ≠ .run) :
    hostRegWrite r v s = .next (s.configWrite r v) := by
  rw [hostRegWrite, if_neg hr, if_neg hs]

/-- Settles O37: in `RUN`, and at a number that stores nothing, the write is ignored; elsewhere it is the register's own. -/
theorem registerWritesStoreTheLowBits : Obligations.RegisterWritesStoreTheLowBits := by
  intro s rest r v ha hr
  have hstep : step s = hostRegWrite r v (s.setAgenda rest) := step_of_host_move ha
  refine ⟨?_, fun hs => ?_⟩
  · rintro (hs | hr')
    · exact hstep.trans (hostRegWrite_of_run v hr hs)
    · exact hstep.trans (hostRegWrite_ignored hr ((s.setAgenda rest).configWrite_ignored v hr'))
  · simp only [BitVec.ofNat_toNat, hstep.trans (hostRegWrite_of_ne_run v hr hs)]
    refine ⟨?_, ?_, ?_, ?_⟩ <;> rintro rfl <;> rfl

/-! The input store (44 R184, 20 R61). -/

theorem State.inByte_of_written {s : State} {a : Nat} {b : Byte} (h : s.inMem.read? a = some b) : s.inByte a = b := by
  rw [State.inByte, h, Option.getD_some]

@[simp] theorem State.inByte_storeIn_same (s : State) (a : Nat) (b : Byte) : (s.storeIn a b).inByte a = b :=
  State.inByte_of_written (s.inMem.read?_write_same a b)

theorem State.inByte_storeIn_ne (s : State) {a a' : Nat} (b : Byte) (h : a' ≠ a) : (s.storeIn a b).inByte a' = s.inByte a' := by
  rw [State.inByte, State.inByte, State.storeIn_inMem, Memory.read?_write_ne _ _ h, State.storeIn_inEpoch]

/-- A slot's first byte is its length (20 R61). -/
theorem State.sbLen_of_address (s : State) {a : Nat} (h : a % 256 = 0) : s.sbLen (a / 256) = s.inByte a := by
  rw [State.sbLen, Nat.mul_div_cancel' (Nat.dvd_of_mod_eq_zero h)]

/-- A slot's other bytes are its payload (20 R61). -/
theorem State.sbByte_of_address (s : State) {a : Nat} (h : a % 256 ≠ 0) : s.sbByte (a / 256) (a % 256 - 1) = s.inByte a := by
  rw [State.sbByte, show 256 * (a / 256) + 1 + (a % 256 - 1) = a by omega]

theorem hostInWrite_of_beyond {a : Nat} (b : Byte) {s : State} (ha : s.inSize ≤ a) : hostInWrite a b s = .fault .inAddress :=
  if_neg (Nat.not_lt_of_le ha)

theorem hostInWrite_of_run {a : Nat} (b : Byte) {s : State} (ha : a < s.inSize) (hs : s.state = .run) :
    hostInWrite a b s = .next s := by
  rw [hostInWrite, if_pos ha, if_pos hs]

theorem hostInWrite_of_ne_run {a : Nat} (b : Byte) {s : State} (ha : a < s.inSize) (hs : s.state ≠ .run) :
    hostInWrite a b s = .next (s.storeIn a b) := by
  rw [hostInWrite, if_pos ha, if_neg hs]

/-- Settles O38: outside `RUN` the write stores one byte, which reads back at its address and by its place in its slot. -/
theorem inputWritesStoreOneByte : Obligations.InputWritesStoreOneByte := by
  intro s rest a b ha
  have hstep : step s = hostInWrite a b (s.setAgenda rest) := step_of_host_move ha
  refine ⟨fun hout => hstep.trans (hostInWrite_of_beyond b hout), fun hin hs => hstep.trans (hostInWrite_of_run b hin hs),
    fun hin hs => ?_⟩
  have hbyte := (s.setAgenda rest).inByte_storeIn_same a b
  exact ⟨_, hstep.trans (hostInWrite_of_ne_run b hin hs), hbyte, fun a' hne => (s.setAgenda rest).inByte_storeIn_ne b hne,
    fun h => (State.sbLen_of_address _ h).trans hbyte, fun h => (State.sbByte_of_address _ h).trans hbyte,
    rfl, rfl, rfl, rfl, rfl, rfl, rfl, rfl, ⟨rfl, rfl, rfl, rfl⟩, ⟨rfl, rfl⟩, rfl, rfl, rfl, rfl⟩

theorem hostInRead_of_within {a : Nat} {s : State} (ha : a < s.inSize) :
    hostInRead a s = .next (s.answer ((s.inByte a).setWidth 32)) := if_pos ha

/-- Settles O39: the word is the byte of `IN` zero-extended, and a written byte is the one stored. -/
theorem inputReadsReturnTheStoredByte : Obligations.InputReadsReturnTheStoredByte := by
  intro s rest a ha hin
  refine ⟨(s.inByte a).setWidth 32, (step_of_host_move ha).trans (hostInRead_of_within hin), fun b hb => ?_⟩
  rw [State.inByte_of_written hb]
  exact BitVec.toNat_setWidth_of_le (by decide)

end Sys2Proof.Machine
end

section
/-! The errors (60): why a code raises, with which cause and how many more bits read, said once; then what an error leaves alone
(R206) and the order of the causes (R205). -/
namespace Sys2Proof.Machine

/-- The code `i` raises the cause `e`, having read `k` more bits: EOI alone reads any, the tail code (60 R202 to R204). -/
inductive Raises (s : State) : Instr → ErrCode → Nat → Prop
  | unassigned (c : Code) : Raises s (.unassigned c) .unassigned 0
  | overflow {i : Instr} {S : List LzwSym} {x : LzwSym} {c : Code} (hi : Sends s i S x c) (ho : s.overflows S.length) :
      Raises s i .count 0
  | miscount (hc : s.outCount ≠ s.expect) : Raises s .eoi .count 0
  | afterEoi (ht : s.cfg.tailCheck = true) : Raises s .eoi .afterEoi s.width.toNat

/-- The code `i` halts in `t` with a cause; beside `STATE` and `ERR` it has written at most the bit reader. -/
def HaltsRaising (s : State) (i : Instr) (t : State) : Prop :=
  ∃ r e k, t = (s.setReader r).raise e ∧ (s.setReader r).bitpos = s.bitpos + k ∧ Raises s i e k

theorem Raises.haltsRaising {s : State} {i : Instr} {e : ErrCode} (h : Raises s i e 0) : HaltsRaising s i (s.raise e) :=
  ⟨s.reader, e, 0, rfl, rfl, h⟩

/-- The shared tail of LIT, REF and KWK halts only where the string does not fit (43 R171). -/
theorem HaltsRaising.of_emitAssign {s t : State} {i : Instr} {S : List LzwSym} {p c : Code} {x : LzwSym} (hi : Sends s i S x c)
    (hs : s.state = .run) (h : s.emitAssign S p x c = .next t) (ht : t.state = .error) : HaltsRaising s i t := by
  rcases State.emitAssign_next h with ⟨ho, rfl⟩ | ⟨-, -, -, -, -, hst, -⟩
  · exact (Raises.overflow hi ho).haltsRaising
  · rw [hst, hs] at ht
    cases ht

theorem HaltsRaising.of_execLit {s t : State} {k : Code} (hs : s.state = .run) (h : execLit k s = .next t)
    (ht : t.state = .error) : HaltsRaising s (.lit k) t := by
  rcases execLit_next h with ⟨-, ho, rfl⟩ | ⟨-, -, rfl⟩ | ⟨p, -, h⟩
  · exact (Raises.overflow (.lit k) ho).haltsRaising
  · cases hs.symm.trans ht
  · exact .of_emitAssign (.lit k) hs h ht

theorem HaltsRaising.of_execRef {s t : State} {c : Code} (hs : s.state = .run) (h : execRef c s = .next t)
    (ht : t.state = .error) : HaltsRaising s (.ref c) t := by
  obtain ⟨p, S, f, -, hS, hf, h⟩ := execRef_next h
  exact .of_emitAssign (.ref hS hf) hs h ht

theorem HaltsRaising.of_execKwk {s t : State} (hs : s.state = .run) (h : execKwk s = .next t) (ht : t.state = .error) :
    HaltsRaising s .kwk t := by
  obtain ⟨p, S, f, hp, hroom, hS, hf, h⟩ := execKwk_next h
  exact .of_emitAssign (.kwk hp hroom hS hf) hs h ht

/-- The count test, after a tail fetch that has moved no position, if any (41 R142, R143). -/
theorem HaltsRaising.of_finalCheck {s : State} {r : BitReader} (hpos : (s.setReader r).bitpos = s.bitpos)
    (ht : (s.setReader r).finalCheck.state = .error) : HaltsRaising s .eoi (s.setReader r).finalCheck := by
  rcases (s.setReader r).finalCheck_cases with ⟨-, e⟩ | ⟨hc, e⟩ <;> rw [e] at ht ⊢
  · cases ht
  · exact ⟨r, .count, 0, rfl, hpos, .miscount hc⟩

theorem HaltsRaising.of_execEoi {s t : State} (hr : RunInv s) (h : execEoi s = .next t)
    (ht : t.state = .error) : HaltsRaising s .eoi t := by
  cases htail : s.cfg.tailCheck with
  | false =>
    rw [execEoi_of_no_tail htail] at h
    cases h
    exact .of_finalCheck (s := s) (r := s.reader) rfl ht
  | true =>
    obtain ⟨r, hu⟩ := s.nextCode_setReader s.width.toNat
    rcases hr.reader.nextCode_cases hr.width_le with ⟨-, hnone, hpos⟩ | ⟨-, hsome, hpos⟩ <;> rw [hu] at hpos
    · rw [execEoi_of_tail_exhausted htail (Prod.ext hnone hu)] at h
      cases h
      exact .of_finalCheck (s := s) hpos ht
    · rw [execEoi_of_tail_code htail (Prod.ext hsome hu)] at h
      cases h
      exact ⟨r, .afterEoi, s.width.toNat, rfl, hpos, .afterEoi htail⟩

/-- Every code that halts in `ERROR` does so by one of the four raises. -/
theorem RunInv.haltsRaising {s t : State} {i : Instr} (hr : RunInv s) (hs : s.state = .run) (h : exec i s = .next t)
    (hstart : i ≠ .start) (hrst : i ≠ .rst) (ht : t.state = .error) : HaltsRaising s i t := by
  cases i with
  | clr =>
    cases h
    cases hs.symm.trans ht
  | eoi => exact .of_execEoi hr h ht
  | lit k => exact .of_execLit hs h ht
  | ref c => exact .of_execRef hs h ht
  | kwk => exact .of_execKwk hs h ht
  | unassigned c =>
    cases h
    exact (Raises.unassigned c).haltsRaising
  | start => exact absurd rfl hstart
  | rst => exact absurd rfl hrst

/-! What the causes tell of the code and of the bits read. -/

theorem Raises.ne_trunc {s : State} {i : Instr} {e : ErrCode} {k : Nat} (h : Raises s i e k) : e ≠ .trunc := by
  cases h <;> decide

theorem Raises.ne_config {s : State} {i : Instr} {e : ErrCode} {k : Nat} (h : Raises s i e k) : e ≠ .config := by
  cases h <;> decide

theorem Raises.bits {s : State} {i : Instr} {e : ErrCode} {k : Nat} (h : Raises s i e k) :
    (e = .unassigned ∨ e = .count → k = 0) ∧ (e = .afterEoi → k = s.width.toNat) := by
  cases h with
  | unassigned c => exact ⟨fun _ => rfl, nofun⟩
  | overflow hi ho => exact ⟨fun _ => rfl, nofun⟩
  | miscount hc => exact ⟨fun _ => rfl, nofun⟩
  | afterEoi ht => exact ⟨nofun, fun _ => rfl⟩

/-- The code `c`, classified as `i`, outputs `S` (42 R150 to R152): KWK's string is the previous one and its first symbol. -/
def StandsFor (s : State) (i : Instr) (c : Code) (S : List LzwSym) : Prop :=
  i = .lit c ∧ S = [c] ∨ i = .ref c ∧ s.str? c = some S ∨
    i = .kwk ∧ ∃ p P f, s.prev = some p ∧ s.str? p = some P ∧ P.head? = some f ∧ S = P ++ [f]

theorem Sends.standsFor {s : State} {c c' : Code} {S : List LzwSym} {x : LzwSym} {i : Instr} (hd : DictInv s)
    (h : Sends s i S x c') (hi : i = classify s.ctx c) : StandsFor s i c S := by
  have hcode : encode s.ctx i = .code c := hi ▸ encode_classify s.ctx c
  cases h with
  | lit k =>
    cases hcode
    exact .inl ⟨rfl, rfl⟩
  | ref hS hf =>
    cases hcode
    exact .inr (.inl ⟨rfl, hS⟩)
  | kwk hp hroom hS hf => exact .inr (.inr ⟨rfl, _, _, _, hp, hS, (hd.first?_eq_head? hS).symm.trans hf, rfl⟩)

/-- A running engine has never emitted too many indices, so a count that differs from `EXPECT` is below it (43 R171). -/
theorem RunInv.outCount_lt {s : State} (h : RunInv s) (hc : s.outCount ≠ s.expect) : s.outCount.toNat < s.expect.toNat :=
  Nat.lt_of_le_of_ne h.out_le (mt BitVec.eq_of_toNat_eq hc)

/-! The state a code runs in: after the turn is used up and the code fetched (40 R131). -/

/-- `u` is `s` after the engine's turn is used up and a fetch has moved `BITPOS` by `k`. -/
structure AfterFetch (s u : State) (k : Nat) : Prop where
  eq : ∃ l r, u = (s.setAgenda l).setReader r
  state : u.state = .run
  inv : RunInv u
  bitpos : u.bitpos = s.bitpos + k

/-- A step on the engine's turn: the fetch is exhausted, or the code delivered is run (40 R131). -/
theorem step_fetches {s t : State} (hm : MachineInv s) (hs : s.state = .run) (hturn : s.engineTurn) (h : step s = .next t) :
    (codeAt s.inBytes s.bitpos s.width.toNat = none ∧ ∃ u, AfterFetch s u 0 ∧ t = u.raise .trunc) ∨
    ∃ c, codeAt s.inBytes s.bitpos s.width.toNat = some c ∧
      ∃ u, AfterFetch s u s.width.toNat ∧ exec (classify s.ctx c) u = .next t := by
  have hr : RunInv (s.setAgenda s.agenda.tail) := (hm.setAgenda _).run hs
  have hcode := hr.reader.nextCode_fst hr.width_le
  have hinv := hr.nextCode
  obtain ⟨r, hu⟩ := (s.setAgenda s.agenda.tail).nextCode_setReader (s.setAgenda s.agenda.tail).width.toNat
  rw [hturn.step_eq, engineStep_eq (s := s.setAgenda s.agenda.tail) hs, hu] at h
  rw [hu] at hinv
  rcases hr.reader.nextCode_cases hr.width_le with ⟨-, hfst, hpos⟩ | ⟨-, hfst, hpos⟩ <;>
    rw [hfst] at h hcode <;> rw [hu] at hpos
  · cases h
    exact .inl ⟨hcode.symm, _, ⟨⟨s.agenda.tail, r, rfl⟩, hs, hinv, hpos⟩, rfl⟩
  · exact .inr ⟨_, hcode.symm, _, ⟨⟨s.agenda.tail, r, rfl⟩, hs, hinv, hpos⟩, h⟩

section
variable {s u : State} {k : Nat} (hu : AfterFetch s u k)
include hu

theorem AfterFetch.ctx : u.ctx = s.ctx := by
  obtain ⟨l, r, rfl⟩ := hu.eq
  rfl

theorem AfterFetch.expect : u.expect = s.expect := by
  obtain ⟨l, r, rfl⟩ := hu.eq
  rfl

/-- A halt after the fetch has written the agenda, the bit reader, `STATE` and `ERR` alone (60 R206). -/
theorem AfterFetch.raise_frame (r : BitReader) (e : ErrCode) :
    SameDictionary s ((u.setReader r).raise e) ∧ SameOutput s ((u.setReader r).raise e) ∧
      SameInput s ((u.setReader r).raise e) := by
  obtain ⟨l, r', rfl⟩ := hu.eq
  exact ⟨⟨rfl, rfl, rfl, rfl⟩, ⟨rfl, rfl⟩, ⟨rfl, rfl, rfl, rfl, rfl, rfl⟩⟩

theorem AfterFetch.sameDictionary : SameDictionary s u := by
  obtain ⟨l, r, rfl⟩ := hu.eq
  exact ⟨rfl, rfl, rfl, rfl⟩

theorem AfterFetch.sameOutput : SameOutput s u := by
  obtain ⟨l, r, rfl⟩ := hu.eq
  exact ⟨rfl, rfl⟩

theorem AfterFetch.cfg : u.cfg = s.cfg := by
  obtain ⟨l, r, rfl⟩ := hu.eq
  rfl

theorem AfterFetch.str? (c : Code) : u.str? c = s.str? c :=
  State.strWithin_congr (congrArg CodeCtx.n hu.ctx) hu.sameDictionary.next hu.sameDictionary.dict dictSize c

/-- The strings codes stand for are those before the step. -/
theorem AfterFetch.standsFor_iff (i : Instr) (c : Code) (S : List LzwSym) : StandsFor u i c S ↔ StandsFor s i c S := by
  simp only [StandsFor, hu.str?, hu.sameDictionary.prev]

end

/-- What runs after a delivered code halts in `ERROR` by one of the raises. -/
theorem AfterFetch.haltsRaising {s u t : State} {k : Nat} {c : Code} (hu : AfterFetch s u k)
    (h : exec (classify s.ctx c) u = .next t) (ht : t.state = .error) : HaltsRaising u (classify s.ctx c) t :=
  hu.inv.haltsRaising hu.state h (classify_ne_start _ c) (classify_ne_rst _ c) ht

/-- Settles O46: an error of an engine step is the exhausted fetch's raise, or a raise of the code it fetched. -/
theorem errorsArePrecise : Obligations.ErrorsArePrecise := by
  intro s t hm hs hturn h ht
  rcases step_fetches hm hs hturn h with ⟨-, u, hu, rfl⟩ | ⟨c, -, u, hu, hexec⟩
  · obtain ⟨hdict, hout, hin⟩ := hu.raise_frame u.reader .trunc
    exact ⟨hdict, hout, hin, fun _ => hu.bitpos, nofun, nofun⟩
  · obtain ⟨r, e, k, rfl, hpos, he⟩ := hu.haltsRaising hexec ht
    obtain ⟨hdict, hout, hin⟩ := hu.raise_frame r e
    obtain ⟨hnone, htail⟩ := he.bits
    have hpos : ((u.setReader r).raise e).bitpos = s.bitpos + s.width.toNat + k := hpos.trans (congrArg (· + k) hu.bitpos)
    refine ⟨hdict, hout, hin, fun hcause => absurd hcause he.ne_trunc, fun hcause => ?_, fun hcause => ?_⟩
    · rw [hpos, hnone hcause, Nat.add_zero]
    · rw [hpos, htail hcause, hu.sameDictionary.width]

/-! The code and the test behind each cause (60 R202 to R204). -/

section
variable {s u : State} {j k : Nat} {c : Code} (hu : AfterFetch s u j)

theorem Raises.eq_unassigned (h : Raises u (classify s.ctx c) .unassigned k) : classify s.ctx c = .unassigned c := by
  generalize hi : classify s.ctx c = i at h
  cases h with
  | unassigned c' =>
    have hcode : encode s.ctx (.unassigned c') = .code c := hi ▸ encode_classify s.ctx c
    cases hcode
    rfl

include hu

theorem AfterFetch.eq_eoi_of_afterEoi (h : Raises u (classify s.ctx c) .afterEoi k) :
    classify s.ctx c = .eoi ∧ s.cfg.tailCheck = true := by
  generalize classify s.ctx c = i at h ⊢
  cases h with
  | afterEoi ht => exact ⟨rfl, hu.cfg ▸ ht⟩

/-- Too few indices at EOI, or a string that does not fit. -/
theorem AfterFetch.miscounted (h : Raises u (classify s.ctx c) .count k) :
    classify s.ctx c = .eoi ∧ s.outCount.toNat < s.expect.toNat ∨
      ∃ S, StandsFor s (classify s.ctx c) c S ∧ s.expect.toNat < s.outCount.toNat + S.length := by
  rw [← hu.expect, ← hu.sameOutput.outCount]
  generalize hi : classify s.ctx c = i at h ⊢
  cases h with
  | @overflow _ S _ _ hsends ho =>
    have hS : StandsFor u i c S := hsends.standsFor hu.inv.dict (hu.ctx ▸ hi.symm)
    exact .inr ⟨S, (hu.standsFor_iff i c S).mp hS, ho⟩
  | miscount hc => exact .inl ⟨rfl, hu.inv.outCount_lt hc⟩

end

/-- Settles O47: an exhausted fetch comes first; of the raises of a delivered code, each names its class and its test. -/
theorem causesFollowTheOrderOfTheTests : Obligations.CausesFollowTheOrderOfTheTests := by
  intro s t hm hs hturn h
  have herr : t.err ≠ .none ↔ t.state = .error := (everyStepKeepsTheInvariant s t hm h).err_iff
  rcases step_fetches hm hs hturn h with ⟨hcode, u, -, rfl⟩ | ⟨c, hcode, u, hu, hexec⟩ <;> rw [hcode]
  · exact ⟨iff_of_true rfl rfl, nofun, nofun⟩
  · have hraises : ∀ {e}, t.err = e → e ≠ .none → ∃ k, Raises u (classify s.ctx c) e k := by
      rintro _ rfl hne
      obtain ⟨r, e, k, rfl, -, hraises⟩ := hu.haltsRaising hexec (herr.mp hne)
      exact ⟨k, hraises⟩
    have hunassigned : classify s.ctx c = .unassigned c → t.err = .unassigned := by
      intro hi
      rw [hi] at hexec
      cases hexec
      rfl
    refine ⟨iff_of_false nofun fun he => ?_, ?_, fun he => ?_⟩
    · obtain ⟨k, hr⟩ := hraises he nofun
      exact hr.ne_trunc rfl
    · rintro _ ⟨⟩
      refine ⟨⟨hunassigned, fun he => ?_⟩, fun he => ?_, fun he => ?_⟩ <;> obtain ⟨k, hr⟩ := hraises he nofun
      · exact hr.eq_unassigned
      · exact hu.eq_eoi_of_afterEoi hr
      · exact hu.miscounted hr
    · obtain ⟨k, hr⟩ := hraises he nofun
      exact hr.ne_config rfl

end Sys2Proof.Machine
end
